-- ==== Sys2Proof/Word.lean ====
section
/-! DEFINITION. The widths of the hardware (00_scope.md R5): the types every other file is written with. -/

namespace Sys2Proof

/-- One byte: a general register, a timer, a memory element, an immediate `nn` (R5 `V_WIDTH`, R71). -/
abbrev Byte := BitVec 8

/-- Sixteen bits: an instruction word, `PC`, `I`, a call-stack entry (R5, R70). -/
abbrev Word := BitVec 16

/-- A memory address 0x000..0xFFF, and the field `nnn` (R5 `MEM_SIZE`, R71). No other address exists. -/
abbrev Addr := BitVec 12

/-- A four-bit field: the register index `x` or `y`, or the count `n` (R71). -/
abbrev Nibble := BitVec 4

/-- The index of a general register `V[0]`..`V[15]` (R21). -/
abbrev RegIdx := Nibble

/-- A CHIP-8 logical key 0x0..0xF (R5 `NUM_KEYS`, R32). -/
abbrev Key := Fin 16

/-- `VF`, the name for `V[0xF]` (R11, R22). -/
def vF : RegIdx := 0xF

end Sys2Proof
end

