-- ==== Sys2Proof/Config.lean ====
section
/-! DEFINITION. What an implementation fixes (00_scope.md R6) and the free values (R7). The values this hardware takes stand in
Machine/Parameters.lean. -/

namespace Sys2Proof

/-- `UNKNOWN_OPCODE_POLICY` (R6, R93). -/
inductive UnknownOpcodePolicy where
  /-- Report the word and go on with the next instruction. -/
  | reportAndSkip
  /-- Raise the fatal condition `UnknownOpcode`. -/
  | fatal
  deriving DecidableEq, Repr

/-- The configuration parameters of R6 that a rule depends on. `LOAD_ADDRESS` is an argument of `Load` (R62); no rule
depends on the two host frequencies (R264). -/
structure Config where
  /-- `UNKNOWN_OPCODE_POLICY` (R93). -/
  unknownOpcodePolicy : UnknownOpcodePolicy
  /-- `LOGIC_OPS_CLEAR_VF` (R133). -/
  logicOpsClearVF : Bool
  /-- `LOOSE_SUBDECODE` (R77, R78). -/
  looseSubdecode : Bool
  /-- `GLYPH_TABLE`, 80 bytes (R27). -/
  glyphTable : List Byte
  deriving DecidableEq, Repr

/-- FREE VALUE (R12, R7, U4; log 5): the byte the random source supplies at its n-th call. It has no body: nothing constrains it,
so what is proved holds for every draw. -/
opaque Config.randomByte : Nat → Byte

/-- FREE VALUE (R204, R7, U5; log 6): at the n-th resolution of a key wait, the number that picks one of the latched keys (taken
modulo their count). It has no body: every latched key may be the one. -/
opaque Config.keyChoice : Nat → Nat

end Sys2Proof
end

