-- ==== Sys2Proof/Machine/Parameters.lean ====
section
/-! DEFINITION. The values this hardware takes for the configuration parameters (00_scope.md R6). -/

namespace Sys2Proof.Machine

/-- `GLYPH_TABLE`: glyph `d` at `5*d` to `5*d + 4` (R27). Glyph 0 is the source's; PRESUMED, unsafe (log 8): the other 75 bytes are
the customary font, which the spec supplies "from general knowledge, not in source" (D19, G1). -/
def customaryFont : List Byte :=
  [0xF0, 0x90, 0x90, 0x90, 0xF0,   0x20, 0x60, 0x20, 0x20, 0x70,
   0xF0, 0x10, 0xF0, 0x80, 0xF0,   0xF0, 0x10, 0xF0, 0x10, 0xF0] ++
  [0x90, 0x90, 0xF0, 0x10, 0x10,   0xF0, 0x80, 0xF0, 0x10, 0xF0,
   0xF0, 0x80, 0xF0, 0x90, 0xF0,   0xF0, 0x10, 0x20, 0x40, 0x40] ++
  [0xF0, 0x90, 0xF0, 0x90, 0xF0,   0xF0, 0x90, 0xF0, 0x10, 0xF0,
   0xF0, 0x90, 0xF0, 0x90, 0x90,   0xE0, 0x90, 0xE0, 0x90, 0xE0] ++
  [0xF0, 0x80, 0x80, 0x80, 0xF0,   0xE0, 0x90, 0x90, 0x90, 0xE0,
   0xF0, 0x80, 0xF0, 0x80, 0xF0,   0xF0, 0x80, 0xF0, 0x80, 0x80]

/-- The column "this hardware" of R6: unknown words are reported and skipped (log 12), the logic operations clear `VF` (log 10), the
decoder is strict (log 11). -/
def hardware : Config where
  unknownOpcodePolicy := .reportAndSkip
  logicOpsClearVF := true
  looseSubdecode := false
  glyphTable := customaryFont

/-- `FETCH_LIMIT`, the largest `PC` that may be fetched (R5, R92). -/
def fetchLimit : Nat := 4094

/-- `PC_RESET`, the entry point (R5, R24). -/
def pcReset : Word := 0x0200

end Sys2Proof.Machine
end

