-- ==== Sys2Proof/Syntax.lean ====
section
/-! DEFINITION. The instructions: one constructor per row of spec/opcode_table.json (30_encoding.md R75). -/

namespace Sys2Proof

/-- The 35 instructions of R75. `x`, `y`: register indices; `n`: a sprite height; `nn`: a byte; `nnn`: an address (R71, R72). -/
inductive Instr where
  /-- `0nnn` SYS nnn, the ignored machine call (R100). -/
  | sys (nnn : Addr)
  /-- `00E0` CLS (R101). -/
  | cls
  /-- `00EE` RET (R104). -/
  | ret
  /-- `1nnn` JP nnn (R102). -/
  | jp (nnn : Addr)
  /-- `2nnn` CALL nnn (R103). -/
  | call (nnn : Addr)
  /-- `3xnn` SE Vx, nn (R120). -/
  | seImm (x : RegIdx) (nn : Byte)
  /-- `4xnn` SNE Vx, nn (R121). -/
  | sneImm (x : RegIdx) (nn : Byte)
  /-- `5xy0` SE Vx, Vy (R122). -/
  | seReg (x y : RegIdx)
  /-- `6xnn` LD Vx, nn (R138). -/
  | ldImm (x : RegIdx) (nn : Byte)
  /-- `7xnn` ADD Vx, nn (R139). -/
  | addImm (x : RegIdx) (nn : Byte)
  /-- `8xy0` LD Vx, Vy (R141). -/
  | ldReg (x y : RegIdx)
  /-- `8xy1` OR Vx, Vy (R142). -/
  | orReg (x y : RegIdx)
  /-- `8xy2` AND Vx, Vy (R143). -/
  | andReg (x y : RegIdx)
  /-- `8xy3` XOR Vx, Vy (R144). -/
  | xorReg (x y : RegIdx)
  /-- `8xy4` ADD Vx, Vy (R145). -/
  | addReg (x y : RegIdx)
  /-- `8xy5` SUB Vx, Vy (R146). -/
  | subReg (x y : RegIdx)
  /-- `8xy6` SHR Vx (R147). The word's `y` is kept: it is decoded but ignored (R134). -/
  | shr (x y : RegIdx)
  /-- `8xy7` SUBN Vx, Vy (R148). -/
  | subnReg (x y : RegIdx)
  /-- `8xyE` SHL Vx (R149). The word's `y` is kept: it is decoded but ignored (R134). -/
  | shl (x y : RegIdx)
  /-- `9xy0` SNE Vx, Vy (R123). -/
  | sneReg (x y : RegIdx)
  /-- `Annn` LD I, nnn (R150). -/
  | ldI (nnn : Addr)
  /-- `Bnnn` JP V0, nnn (R105). -/
  | jpV0 (nnn : Addr)
  /-- `Cxnn` RND Vx, nn (R151). -/
  | rnd (x : RegIdx) (nn : Byte)
  /-- `Dxyn` DRW Vx, Vy, n (R161). -/
  | drw (x y : RegIdx) (n : Nibble)
  /-- `Ex9E` SKP Vx (R170). -/
  | skp (x : RegIdx)
  /-- `ExA1` SKNP Vx (R171). -/
  | sknp (x : RegIdx)
  /-- `Fx07` LD Vx, DT (R180). -/
  | ldFromDT (x : RegIdx)
  /-- `Fx0A` LD Vx, K (R200). -/
  | ldK (x : RegIdx)
  /-- `Fx15` LD DT, Vx (R181). -/
  | ldDT (x : RegIdx)
  /-- `Fx18` LD ST, Vx (R182). -/
  | ldST (x : RegIdx)
  /-- `Fx1E` ADD I, Vx (R183). -/
  | addI (x : RegIdx)
  /-- `Fx29` LD F, Vx (R184). -/
  | ldF (x : RegIdx)
  /-- `Fx33` LD B, Vx (R185). -/
  | ldB (x : RegIdx)
  /-- `Fx55` LD [I], Vx (R186). -/
  | stRegs (x : RegIdx)
  /-- `Fx65` LD Vx, [I] (R187). -/
  | ldRegs (x : RegIdx)
  deriving DecidableEq, Repr

end Sys2Proof
end

