-- ==== Sys2Proof/Decode.lean ====
section
/-! DEFINITION. Fields, decoder and encoder (30_encoding.md R70 to R79). -/

namespace Sys2Proof

/-- What the decoder answers (R77): an instruction of R75, or `Unknown` with the word it rejects. -/
inductive Decoded where
  /-- The word is this instruction. -/
  | instr (i : Instr)
  /-- No listed encoding matches the word (R79). -/
  | unknown (w : Word)
  deriving DecidableEq, Repr

/-- `op`, w[15:12] (R71). -/
def fieldOp (w : Word) : Nibble := w.extractLsb' 12 4
/-- `x`, w[11:8] (R71). -/
def fieldX (w : Word) : RegIdx := w.extractLsb' 8 4
/-- `y`, w[7:4] (R71). -/
def fieldY (w : Word) : RegIdx := w.extractLsb' 4 4
/-- `n`, w[3:0] (R71). -/
def fieldN (w : Word) : Nibble := w.extractLsb' 0 4
/-- `nn`, w[7:0] (R71). -/
def fieldNn (w : Word) : Byte := w.extractLsb' 0 8
/-- `nnn`, w[11:0] (R71). -/
def fieldNnn (w : Word) : Addr := w.extractLsb' 0 12

/-- Family 0x0 (R77, R78): CLS, RET, else SYS. With `loose` the `x` nibble does not count. -/
def decodeSystem (loose : Bool) (w : Word) : Instr :=
  if w = 0x00E0 ∨ (loose = true ∧ fieldNn w = 0xE0) then .cls
  else if w = 0x00EE ∨ (loose = true ∧ fieldNn w = 0xEE) then .ret
  else .sys (fieldNnn w)

/-- Family 0x8, keyed by `n` (R76, R77). -/
def decodeAlu (w : Word) : Decoded :=
  if fieldN w = 0x0 then .instr (.ldReg (fieldX w) (fieldY w))
  else if fieldN w = 0x1 then .instr (.orReg (fieldX w) (fieldY w))
  else if fieldN w = 0x2 then .instr (.andReg (fieldX w) (fieldY w))
  else if fieldN w = 0x3 then .instr (.xorReg (fieldX w) (fieldY w))
  else if fieldN w = 0x4 then .instr (.addReg (fieldX w) (fieldY w))
  else if fieldN w = 0x5 then .instr (.subReg (fieldX w) (fieldY w))
  else if fieldN w = 0x6 then .instr (.shr (fieldX w) (fieldY w))
  else if fieldN w = 0x7 then .instr (.subnReg (fieldX w) (fieldY w))
  else if fieldN w = 0xE then .instr (.shl (fieldX w) (fieldY w))
  else .unknown w

/-- Family 0xE, keyed by `nn` (R76, R77). -/
def decodeKey (w : Word) : Decoded :=
  if fieldNn w = 0x9E then .instr (.skp (fieldX w))
  else if fieldNn w = 0xA1 then .instr (.sknp (fieldX w))
  else .unknown w

/-- Family 0xF, keyed by `nn` (R76, R77). -/
def decodeMisc (w : Word) : Decoded :=
  if fieldNn w = 0x07 then .instr (.ldFromDT (fieldX w))
  else if fieldNn w = 0x0A then .instr (.ldK (fieldX w))
  else if fieldNn w = 0x15 then .instr (.ldDT (fieldX w))
  else if fieldNn w = 0x18 then .instr (.ldST (fieldX w))
  else if fieldNn w = 0x1E then .instr (.addI (fieldX w))
  else if fieldNn w = 0x29 then .instr (.ldF (fieldX w))
  else if fieldNn w = 0x33 then .instr (.ldB (fieldX w))
  else if fieldNn w = 0x55 then .instr (.stRegs (fieldX w))
  else if fieldNn w = 0x65 then .instr (.ldRegs (fieldX w))
  else .unknown w

/-- `Decode(w)` of R77, with `LOOSE_SUBDECODE` as an argument (R78): total on all words, reads no state. -/
def decodeWith (loose : Bool) (w : Word) : Decoded :=
  if fieldOp w = 0x0 then .instr (decodeSystem loose w)
  else if fieldOp w = 0x1 then .instr (.jp (fieldNnn w))
  else if fieldOp w = 0x2 then .instr (.call (fieldNnn w))
  else if fieldOp w = 0x3 then .instr (.seImm (fieldX w) (fieldNn w))
  else if fieldOp w = 0x4 then .instr (.sneImm (fieldX w) (fieldNn w))
  else if fieldOp w = 0x5 then
    if fieldN w = 0x0 ∨ loose = true then .instr (.seReg (fieldX w) (fieldY w)) else .unknown w
  else if fieldOp w = 0x6 then .instr (.ldImm (fieldX w) (fieldNn w))
  else if fieldOp w = 0x7 then .instr (.addImm (fieldX w) (fieldNn w))
  else if fieldOp w = 0x8 then decodeAlu w
  else if fieldOp w = 0x9 then
    if fieldN w = 0x0 ∨ loose = true then .instr (.sneReg (fieldX w) (fieldY w)) else .unknown w
  else if fieldOp w = 0xA then .instr (.ldI (fieldNnn w))
  else if fieldOp w = 0xB then .instr (.jpV0 (fieldNnn w))
  else if fieldOp w = 0xC then .instr (.rnd (fieldX w) (fieldNn w))
  else if fieldOp w = 0xD then .instr (.drw (fieldX w) (fieldY w) (fieldN w))
  else if fieldOp w = 0xE then decodeKey w
  else decodeMisc w

/-- The decoder of this hardware (`LOOSE_SUBDECODE` = false, R6, R77). -/
def decode (w : Word) : Decoded := decodeWith Machine.hardware.looseSubdecode w

/-- Big-endian (R51): the byte at the lower address is the high one. -/
def wordOfBytes (hi lo : Byte) : Word := hi ++ lo

/-- The two bytes of a word as memory holds them, the lower address first (R51). -/
def bytesOfWord (w : Word) : List Byte := [w.extractLsb' 8 8, w.extractLsb' 0 8]

/-- `op ++ x ++ nn` (R71). -/
def wordXnn (op x : Nibble) (nn : Byte) : Word := op ++ x ++ nn
/-- `op ++ nnn` (R71). -/
def wordNnn (op : Nibble) (nnn : Addr) : Word := op ++ nnn
/-- `op ++ x ++ y ++ n` (R71). -/
def wordXyn (op x y n : Nibble) : Word := op ++ x ++ y ++ n

/-- The word of an instruction, from the encoding column of R75. -/
def encode : Instr → Word
  | .sys nnn => wordNnn 0x0 nnn
  | .cls => 0x00E0
  | .ret => 0x00EE
  | .jp nnn => wordNnn 0x1 nnn
  | .call nnn => wordNnn 0x2 nnn
  | .seImm x nn => wordXnn 0x3 x nn
  | .sneImm x nn => wordXnn 0x4 x nn
  | .seReg x y => wordXyn 0x5 x y 0x0
  | .ldImm x nn => wordXnn 0x6 x nn
  | .addImm x nn => wordXnn 0x7 x nn
  | .ldReg x y => wordXyn 0x8 x y 0x0
  | .orReg x y => wordXyn 0x8 x y 0x1
  | .andReg x y => wordXyn 0x8 x y 0x2
  | .xorReg x y => wordXyn 0x8 x y 0x3
  | .addReg x y => wordXyn 0x8 x y 0x4
  | .subReg x y => wordXyn 0x8 x y 0x5
  | .shr x y => wordXyn 0x8 x y 0x6
  | .subnReg x y => wordXyn 0x8 x y 0x7
  | .shl x y => wordXyn 0x8 x y 0xE
  | .sneReg x y => wordXyn 0x9 x y 0x0
  | .ldI nnn => wordNnn 0xA nnn
  | .jpV0 nnn => wordNnn 0xB nnn
  | .rnd x nn => wordXnn 0xC x nn
  | .drw x y n => wordXyn 0xD x y n
  | .skp x => wordXnn 0xE x 0x9E
  | .sknp x => wordXnn 0xE x 0xA1
  | .ldFromDT x => wordXnn 0xF x 0x07
  | .ldK x => wordXnn 0xF x 0x0A
  | .ldDT x => wordXnn 0xF x 0x15
  | .ldST x => wordXnn 0xF x 0x18
  | .addI x => wordXnn 0xF x 0x1E
  | .ldF x => wordXnn 0xF x 0x29
  | .ldB x => wordXnn 0xF x 0x33
  | .stRegs x => wordXnn 0xF x 0x55
  | .ldRegs x => wordXnn 0xF x 0x65

/-- The word whose bits, numbered as spec/opcode_table.json numbers them, are the low `nbits` bits of `w`; the bits above are 0. -/
def tableWord (nbits w : Nat) : Word := BitVec.ofNat 16 (w % 2 ^ nbits)

/-- The instruction of the table word `w`, laid out as memory holds it (R51) and read by the decoder. -/
def decodeTableWord (nbits w : Nat) : Option Instr :=
  match bytesOfWord (tableWord nbits w) with
  | [hi, lo] =>
    match decode (wordOfBytes hi lo) with
    | .instr i => some i
    | .unknown _ => none
  | _ => none

end Sys2Proof
end

