-- ==== Sys2Proof/Machine/Framebuffer.lean ====
section
/-! DEFINITION. The framebuffer (10_state.md R31; 43_sprite_draw.md R162): 64 by 32 cells of one bit, reached cell by cell. -/

namespace Sys2Proof.Machine

/-- `fb[px][py]`, 0 <= px <= 63, 0 <= py <= 31 (R31): 64 columns of 32 cells. -/
abbrev Framebuffer := Vector (Vector Bool 32) 64

/-- All cells 0 (R31, R101). -/
def Framebuffer.blank : Framebuffer := Vector.replicate 64 (Vector.replicate 32 false)

/-- Read one cell (R162). -/
def Framebuffer.pixel (fb : Framebuffer) (px : Fin 64) (py : Fin 32) : Bool := (fb[px.val])[py.val]

/-- Write one cell (R162). -/
def Framebuffer.setPixel (fb : Framebuffer) (px : Fin 64) (py : Fin 32) (b : Bool) : Framebuffer :=
  fb.set px.val ((fb[px.val]).set py.val b)

end Sys2Proof.Machine
end

