-- ==== Sys2Proof/Machine/Memory.lean ====
section
/-! DEFINITION. Memory (20_memory.md R50 to R63): 4096 bytes, held as the list of the addresses whose byte differs from the reset
contents, addresses strictly rising. -/

namespace Sys2Proof.Machine

/-- `mem[0..4095]` (R26) as the cells that differ from the reset contents. -/
abbrev Memory := List Host.Cell

/-- What an unlisted address reads as: the byte `Reset()` leaves there, the glyph table at 0x000..0x04F and 0x00 above (R26, R240;
log 9). -/
def unlistedByte (a : Nat) : Byte := hardware.glyphTable.getD a 0

/-- The listed byte of an address, if it is listed. -/
def Memory.lookup : Memory → Nat → Option Byte
  | [], _ => none
  | (k, b) :: m, a => if k = a then some b else Memory.lookup m a

/-- `MemRead(a, 1)` (R11, R53). -/
def Memory.readByte (m : Memory) (a : Addr) : Byte := (m.lookup a.toNat).getD (unlistedByte a.toNat)

/-- Take an address off the list. -/
def Memory.unlist : Memory → Nat → Memory
  | [], _ => []
  | (k, b) :: m, a => if k = a then Memory.unlist m a else (k, b) :: Memory.unlist m a

/-- List a byte at an address, in the place its address has among the rising ones. -/
def Memory.list : Memory → Nat → Byte → Memory
  | [], a, v => [(a, v)]
  | (k, b) :: m, a, v =>
    if a < k then (a, v) :: (k, b) :: m
    else if a = k then (a, v) :: m
    else (k, b) :: Memory.list m a v

/-- `MemWrite(a, 1, v)` (R11, R53): only that byte changes (R56). No address is protected (R63). -/
def Memory.writeByte (m : Memory) (a : Addr) (v : Byte) : Memory :=
  if v = unlistedByte a.toNat then m.unlist a.toNat else m.list a.toNat v

/-- One-byte writes at ascending addresses from `base` (R53). Every caller has checked that the last address is at most 0xFFF
(R55, R62; log 20). -/
def Memory.writeBytes (m : Memory) (base : Nat) : List Byte → Memory
  | [] => m
  | b :: bs => Memory.writeBytes (m.writeByte (BitVec.ofNat 12 base) b) (base + 1) bs

/-- The bytes at `base`, `base + 1`, .. , `base + count - 1` (R53). Every caller has checked the range (R55, R92; log 20). -/
def Memory.readBytes (m : Memory) (base count : Nat) : List Byte :=
  (List.range count).map fun k => m.readByte (BitVec.ofNat 12 (base + k))

/-- Every listed cell lies at an address of at least `low`, the addresses rise strictly and stay below 4096, and no listed byte is
the one an unlisted address reads as. -/
def Memory.canonicalFrom : Nat → Memory → Bool
  | _, [] => true
  | low, (k, b) :: m => decide (low ≤ k) && decide (k < 4096) && (b != unlistedByte k) && Memory.canonicalFrom (k + 1) m

/-- The canonical form of memory: equal memories are equal lists. -/
def Memory.wf (m : Memory) : Bool := Memory.canonicalFrom 0 m

end Sys2Proof.Machine
end

