-- ==== Sys2Proof/Machine/State.lean ====
section
/-! DEFINITION. The state of the block (10_state.md R20), its reset value (R240), and the reasons a step can stop. -/

namespace Sys2Proof.Machine

/-- The fatal conditions, complete (60_exceptions.md R212). Each ends in the status `halted`, a next state. -/
inductive FatalCondition where
  /-- Fetch with `PC` above 4094 (R92). -/
  | fetchOutOfBounds
  /-- CALL with `SP` = 16 (R103). -/
  | stackOverflow
  /-- RET with `SP` = 0 (R104). -/
  | stackUnderflow
  /-- A data range that passes 0xFFF (R55). -/
  | memoryOutOfBounds
  /-- SKP or SKNP with `V[x]` above 15 (R170, R171). -/
  | keyIndexOutOfRange
  /-- An unknown word under the policy `fatal` (R93), which this hardware does not take. -/
  | unknownOpcode
  deriving DecidableEq, Repr

/-- The engine's state machine (R35). The `info` of a halt is the value R212 records, zero-extended to 16 bits (log 22). -/
inductive Status where
  /-- Each cycle executes one instruction. -/
  | running
  /-- `Fx0A` waits for a press; `r` is the key-wait latch. -/
  | waitingForKey (r : RegIdx)
  /-- Terminal but for `Reset()` (R214). -/
  | halted (fault : FatalCondition) (info : Word)
  deriving DecidableEq, Repr

/-- The reports, complete (R216). -/
inductive Report where
  /-- SYS (R100). -/
  | ignoredMachineCall (w : Word)
  /-- An unknown word that is skipped (R93). -/
  | unknownOpcode (w : Word)
  deriving DecidableEq, Repr

/-- What `Load` returns to its caller (R62). -/
inductive LoadResult where
  | ok
  | oversizeImage
  deriving DecidableEq, Repr

/-- What a transaction hands to the outside of the block (R8). -/
inductive Output where
  /-- The report of an engine cycle (R216). -/
  | report (r : Report)
  /-- The result of `Load` (R62). -/
  | load (r : LoadResult)
  /-- The cell read by `ReadPixel` (R31). -/
  | pixel (lit : Bool)
  /-- The level read by `SoundActive` (R227). -/
  | soundActive (active : Bool)
  deriving DecidableEq, Repr

/-- The transactions of R8, each performed whole (R57). -/
inductive Transaction where
  /-- `Cycle()` (R90). -/
  | cycle
  /-- `Tick()` (R225). -/
  | tick
  /-- `SetKey(k, held)` (R34). -/
  | setKey (k : Key) (held : Bool)
  /-- `Reset()` (R240). -/
  | reset
  /-- `Load(bytes, A)` (R62). -/
  | load (image : List Byte) (address : Nat)
  /-- `ReadPixel(px, py)` (R31). -/
  | readPixel (px : Fin 64) (py : Fin 32)
  /-- The read of `SoundActive` (R227). -/
  | readSound
  deriving DecidableEq, Repr

/-- The state of the block, as R20 lists it, and four fields of the model's own. -/
structure State where
  /-- `V[0..15]` (R21). -/
  v : Vector Byte 16
  /-- `I` (R25). -/
  i : Word
  /-- `PC` (R24). -/
  pc : Word
  /-- `stack[0..15]` (R28). -/
  stack : Vector Word 16
  /-- `SP`, 0..16 (R29). -/
  sp : Fin 17
  /-- The engine status (R35). -/
  status : Status
  /-- The press-edge latch (R33). -/
  keyEdge : Vector Bool 16
  /-- The delay timer `DT` (R30). -/
  dt : Byte
  /-- The sound timer `ST` (R30). -/
  st : Byte
  /-- The framebuffer (R31). -/
  fb : Framebuffer
  /-- The key state (R32). -/
  keyHeld : Vector Bool 16
  /-- The memory (R26, R50). -/
  mem : Memory
  /-- MODEL'S OWN (log 4): what the last transaction handed out, if anything. No rule reads it (R39). -/
  output : Option Output
  /-- MODEL'S OWN (log 5): the number of random bytes drawn so far, the argument of the next draw. -/
  randomDraws : Nat
  /-- MODEL'S OWN (log 6): the number of key choices drawn so far, the argument of the next draw. -/
  keyDraws : Nat
  /-- MODEL'S OWN (log 2): the transactions the agents perform next, oldest first; when none is left the host loop calls `Cycle()`. -/
  schedule : List Transaction
  deriving DecidableEq, Repr

/-- The state right after `Reset()` (R240). The model's own fields: nothing handed out, nothing drawn, nothing scheduled. -/
def State.reset : State where
  v := Vector.replicate 16 0x00
  i := 0x0000
  pc := pcReset
  stack := Vector.replicate 16 0x0000
  sp := 0
  status := .running
  keyEdge := Vector.replicate 16 false
  dt := 0x00
  st := 0x00
  fb := Framebuffer.blank
  keyHeld := Vector.replicate 16 false
  mem := []
  output := none
  randomDraws := 0
  keyDraws := 0
  schedule := []

/-- The reasons a step stops with a fault: none. Every fatal condition of R212 is TAKEN, as a next state whose status is `halted`
(R210), in which later cycles do nothing (R214); no address outside memory can be formed, the addresses being 12 bits wide. So no
step raises a fault, which is neither safe nor unsafe: nothing stops where the hardware goes on (log 1). -/
inductive Fault where
  deriving DecidableEq, Repr

/-- The reasons a step is refused. -/
inductive Refusal where
  /-- Raised by an arm of `exec` whose instruction has no meaning yet: safe, the model stops where the hardware goes on. No arm
  raises it: every instruction of R75 has its meaning. -/
  | notModelled (mnemonic : String)
  deriving DecidableEq, Repr

/-- What a meaning and a step answer. -/
abbrev Result := Host.Outcome State Fault Refusal

end Sys2Proof.Machine
end

