-- ==== Sys2Proof/Machine/Ops.lean ====
section
/-! DEFINITION. The named operations over registers, memory, framebuffer, stack and status that the meanings share. -/

namespace Sys2Proof.Machine

/-- Read `V[r]` (R11, R21). -/
def State.getV (s : State) (r : RegIdx) : Byte := s.v[r.toNat]'r.isLt

/-- `V[r] <- b` (R11, R21). -/
def State.setV (s : State) (r : RegIdx) (b : Byte) : State := { s with v := s.v.set r.toNat b r.isLt }

/-- `PC <- target` (R11, R24). -/
def State.setPc (s : State) (target : Word) : State := { s with pc := target }

/-- `I <- a` (R25). -/
def State.setI (s : State) (a : Word) : State := { s with i := a }

/-- The fetch's advance `PC <- PC + 2` (R91), and a taken skip's (R120). Narrowed to the 16 bits of `PC` (R10; log 18). -/
def State.advancePc (s : State) : State := s.setPc (s.pc + 2)

/-- A skip: `PC <- PC + 2` when the predicate holds (R120 to R123, R170, R171). -/
def State.skipIf (s : State) (taken : Bool) : State := if taken then s.advancePc else s

/-- TAKING A FATAL CONDITION: `raise <Fault>(info)` (R11, R210). The status becomes `Halted(f, info)`; nothing is saved elsewhere and
nothing else changes. There is no return from it (R219) but `Reset()` (R214, `performReset`). -/
def State.raise (s : State) (f : FatalCondition) (info : Word) : State := { s with status := .halted f info }

/-- The cause codes the spec assigns to the fatal conditions (R212, D15). -/
def FatalCondition.code : FatalCondition → Nat
  | .fetchOutOfBounds => 1
  | .stackOverflow => 2
  | .stackUnderflow => 3
  | .memoryOutOfBounds => 4
  | .keyIndexOutOfRange => 5
  | .unknownOpcode => 6

/-- `report <Kind>(word)` (R11, R216): an output of the cycle; no state of the block changes. -/
def State.emit (s : State) (r : Report) : State := { s with output := some (.report r) }

/-- `CheckRange(base, count)` holds (R55), for `count` >= 1: no address of the range exceeds 0xFFF. -/
def rangeFits (base : Word) (count : Nat) : Bool := decide (base.toNat + count - 1 ≤ 0xFFF)

/-- `CheckRange(I, count)` before any effect of the instruction (R55): `body` if it holds, else `MemoryOutOfBounds(I)`. -/
def State.guardRange (s : State) (count : Nat) (body : State) : State :=
  if rangeFits s.i count then body else s.raise .memoryOutOfBounds s.i

/-- One-byte writes at ascending addresses from `base` (R53). -/
def State.storeBytes (s : State) (base : Nat) (bs : List Byte) : State := { s with mem := s.mem.writeBytes base bs }

/-- `V[0] <- mem[base]`, `V[1] <- mem[base + 1]`, .. for `count` registers (R187). -/
def State.loadRegisters (s : State) (base : Nat) : Nat → State
  | 0 => s
  | k + 1 => (s.loadRegisters base k).setV (BitVec.ofNat 4 k) (s.mem.readByte (BitVec.ofNat 12 (base + k)))

/-- `stack[SP] <- PC; SP <- SP + 1` (R103). -/
def State.push (s : State) (h : s.sp.val < 16) : State :=
  { s with stack := s.stack.set s.sp.val s.pc h, sp := ⟨s.sp.val + 1, Nat.succ_lt_succ h⟩ }

/-- `SP <- SP - 1; PC <- stack[SP]` (R104); the entry keeps its value (R28). -/
def State.pop (s : State) : State :=
  have lt : s.sp.val - 1 < 16 := by omega
  { s with sp := ⟨s.sp.val - 1, Nat.lt_succ_of_lt lt⟩, pc := s.stack[s.sp.val - 1] }

/-- The latched keys, lowest index first (R33, R204). -/
def pressedKeys (edge : Vector Bool 16) : List Key := (List.finRange 16).filter fun k => edge[k.val]

/-- `SelectKey(e)` (R204): one of the latched keys, the `draw`-th modulo their count. -/
def selectKey (edge : Vector Bool 16) (draw : Nat) : Key :=
  (pressedKeys edge).getD (draw % (pressedKeys edge).length) 0

end Sys2Proof.Machine
end

