-- ==== Sys2Proof/Machine/Operands.lean ====
section
/-! DEFINITION. The operand forms (30_encoding.md R72): zero-extended addresses, the register block of `Fx55`, the key index, the
decimal digits. The immediates `nn` and `n` and the registers are used as they stand. -/

namespace Sys2Proof.Machine

/-- `zext_16(nnn)` (R10, R72). -/
def zextAddr (nnn : Addr) : Word := nnn.setWidth 16

/-- An unsigned byte widened to 16 bits (R10). -/
def zextByte (b : Byte) : Word := b.setWidth 16

/-- `V[0]` .. `V[x]` in ascending order (R72, R186). -/
def State.registersUpTo (s : State) (x : RegIdx) : List Byte :=
  (List.range (x.toNat + 1)).map fun k => s.getV (BitVec.ofNat 4 k)

/-- The key that `V[x]` names, if it is an index of the key state (R170). -/
def State.keyNamed (s : State) (x : RegIdx) : Option Key :=
  if h : (s.getV x).toNat < 16 then some ⟨(s.getV x).toNat, h⟩ else none

/-- The byte of a key index (R202). -/
def byteOfKey (k : Key) : Byte := BitVec.ofNat 8 k.val

/-- Hundreds, tens and ones of a byte (R185). -/
def decimalDigits (v : Byte) : List Byte :=
  [BitVec.ofNat 8 (v.toNat / 100), BitVec.ofNat 8 (v.toNat / 10 % 10), BitVec.ofNat 8 (v.toNat % 10)]

end Sys2Proof.Machine
end

