-- ==== Sys2Proof/Machine/Flags.lean ====
section
/-! DEFINITION. The flags that instructions write to `VF` (10_state.md R22) and the order in which flag and result are written (42_alu.md R132). -/

namespace Sys2Proof.Machine

/-- A flag value, 1 or 0. -/
def flagByte (b : Bool) : Byte := if b then 1 else 0

/-- `8xy4`: 1 iff the exact sum exceeds 255 (R145). -/
def carryFlag (a b : Byte) : Byte := flagByte (decide (a.toNat + b.toNat > 255))

/-- `8xy5`, `8xy7`: 1 iff minuend >= subtrahend, no borrow (R146, R148). -/
def noBorrowFlag (minuend subtrahend : Byte) : Byte := flagByte (decide (minuend.toNat ≥ subtrahend.toNat))

/-- `8xy6`: the bit shifted out, bit 0 (R147). -/
def lowBitFlag (a : Byte) : Byte := flagByte (a.getLsbD 0)

/-- `8xyE`: the bit shifted out, bit 7 (R149). -/
def highBitFlag (a : Byte) : Byte := flagByte (a.getLsbD 7)

/-- `8xy4` to `8xyE`: the flag first, then the result, so that with `x` = 0xF the result remains (R132; log 13). -/
def State.writeFlagThenResult (s : State) (x : RegIdx) (flag result : Byte) : State :=
  (s.setV vF flag).setV x result

/-- `8xy1` to `8xy3`: the result first, then the flag is cleared if `LOGIC_OPS_CLEAR_VF` (R132, R133; log 13). -/
def State.writeLogicResult (s : State) (clear : Bool) (x : RegIdx) (result : Byte) : State :=
  if clear then (s.setV x result).setV vF 0 else s.setV x result

end Sys2Proof.Machine
end

