-- ==== Sys2Proof/Machine/Alu.lean ====
section
/-! DEFINITION. The meanings of 42_alu.md. Operands are read before any write (R131); results wrap modulo 256 (R130). -/

namespace Sys2Proof.Machine

/-- LD Vx, nn (R138). -/
def execLdImm (x : RegIdx) (nn : Byte) (s : State) : Result := .next (s.setV x nn)

/-- ADD Vx, nn: no flag (R139). -/
def execAddImm (x : RegIdx) (nn : Byte) (s : State) : Result := .next (s.setV x (s.getV x + nn))

/-- LD Vx, Vy (R141). -/
def execLdReg (x y : RegIdx) (s : State) : Result := .next (s.setV x (s.getV y))

/-- OR Vx, Vy (R142). -/
def execOrReg (x y : RegIdx) (s : State) : Result :=
  .next (s.writeLogicResult hardware.logicOpsClearVF x (s.getV x ||| s.getV y))

/-- AND Vx, Vy (R143). -/
def execAndReg (x y : RegIdx) (s : State) : Result :=
  .next (s.writeLogicResult hardware.logicOpsClearVF x (s.getV x &&& s.getV y))

/-- XOR Vx, Vy (R144). -/
def execXorReg (x y : RegIdx) (s : State) : Result :=
  .next (s.writeLogicResult hardware.logicOpsClearVF x (s.getV x ^^^ s.getV y))

/-- ADD Vx, Vy: carry, then the sum modulo 256 (R145). -/
def execAddReg (x y : RegIdx) (s : State) : Result :=
  .next (s.writeFlagThenResult x (carryFlag (s.getV x) (s.getV y)) (s.getV x + s.getV y))

/-- SUB Vx, Vy: no borrow, then `V[x] - V[y]` modulo 256 (R146). -/
def execSubReg (x y : RegIdx) (s : State) : Result :=
  .next (s.writeFlagThenResult x (noBorrowFlag (s.getV x) (s.getV y)) (s.getV x - s.getV y))

/-- SHR Vx: bit 0, then the logical right shift; `V[y]` is ignored (R147, R134). -/
def execShr (x _y : RegIdx) (s : State) : Result :=
  .next (s.writeFlagThenResult x (lowBitFlag (s.getV x)) (s.getV x >>> 1))

/-- SUBN Vx, Vy: no borrow, then `V[y] - V[x]` modulo 256 (R148). -/
def execSubnReg (x y : RegIdx) (s : State) : Result :=
  .next (s.writeFlagThenResult x (noBorrowFlag (s.getV y) (s.getV x)) (s.getV y - s.getV x))

/-- SHL Vx: bit 7, then the left shift modulo 256; `V[y]` is ignored (R149, R134). -/
def execShl (x _y : RegIdx) (s : State) : Result :=
  .next (s.writeFlagThenResult x (highBitFlag (s.getV x)) (s.getV x <<< 1))

/-- LD I, nnn (R150). -/
def execLdI (nnn : Addr) (s : State) : Result := .next (s.setI (zextAddr nnn))

/-- RND Vx, nn: one draw from the random source, also when `nn` = 0 (R151, R12). -/
def execRnd (x : RegIdx) (nn : Byte) (s : State) : Result :=
  .next { s.setV x (Config.randomByte s.randomDraws &&& nn) with randomDraws := s.randomDraws + 1 }

end Sys2Proof.Machine
end

