-- ==== Sys2Proof/Machine/ControlFlow.lean ====
section
/-! DEFINITION. The meanings of 40_control_flow.md. `s.pc` already holds the instruction's address plus 2 (R91). -/

namespace Sys2Proof.Machine

/-- SYS nnn: `report IgnoredMachineCall(w)`, nothing else (R100). The word is `nnn` under the family nibble 0 (log 19). -/
def execSys (nnn : Addr) (s : State) : Result := .next (s.emit (.ignoredMachineCall (zextAddr nnn)))

/-- CLS: every cell 0 (R101). -/
def execCls (s : State) : Result := .next { s with fb := Framebuffer.blank }

/-- RET (R104). -/
def execRet (s : State) : Result :=
  if s.sp.val = 0 then .next (s.raise .stackUnderflow s.pc) else .next s.pop

/-- JP nnn (R102). -/
def execJp (nnn : Addr) (s : State) : Result := .next (s.setPc (zextAddr nnn))

/-- CALL nnn (R103). -/
def execCall (nnn : Addr) (s : State) : Result :=
  if h : s.sp.val < 16 then .next ((s.push h).setPc (zextAddr nnn)) else .next (s.raise .stackOverflow s.pc)

/-- JP V0, nnn: `PC <- zext_16(nnn) + V[0]`, never narrowed (R105). -/
def execJpV0 (nnn : Addr) (s : State) : Result := .next (s.setPc (zextAddr nnn + zextByte (s.getV 0)))

end Sys2Proof.Machine
end

