-- ==== Sys2Proof/Machine/Keyboard.lean ====
section
/-! DEFINITION. The meanings of 44_keyboard.md and of `Fx0A` (46_key_wait.md), and the key-wait poll. -/

namespace Sys2Proof.Machine

/-- SKP Vx (R170): reads the level, not the latch; an index above 15 is fatal (log 15). -/
def execSkp (x : RegIdx) (s : State) : Result :=
  match s.keyNamed x with
  | some k => .next (s.skipIf (s.keyHeld[k.val] == true))
  | none => .next (s.raise .keyIndexOutOfRange (zextByte (s.getV x)))

/-- SKNP Vx (R171): as SKP with the predicate negated. -/
def execSknp (x : RegIdx) (s : State) : Result :=
  match s.keyNamed x with
  | some k => .next (s.skipIf (s.keyHeld[k.val] == false))
  | none => .next (s.raise .keyIndexOutOfRange (zextByte (s.getV x)))

/-- LD Vx, K (R200): clear the press-edge latch and wait; `V[x]` is written by the poll that sees a press (R202). -/
def execLdK (x : RegIdx) (s : State) : Result :=
  .next { s with keyEdge := Vector.replicate 16 false, status := .waitingForKey x }

/-- `KeyWaitPoll(r)` (R202): nothing while no press is latched; else `V[r]` receives a latched key, the latch is cleared and the engine
runs again from the next cycle on. -/
def keyWaitPoll (r : RegIdx) (s : State) : State :=
  match pressedKeys s.keyEdge with
  | [] => s
  | _ :: _ =>
    { s.setV r (byteOfKey (selectKey s.keyEdge (Config.keyChoice s.keyDraws))) with
      keyEdge := Vector.replicate 16 false, status := .running, keyDraws := s.keyDraws + 1 }

end Sys2Proof.Machine
end

