-- ==== Sys2Proof/Machine/Sprite.lean ====
section
/-! DEFINITION. The blitter and the meaning of 43_sprite_draw.md. -/

namespace Sys2Proof.Machine

/-- A draw under way: the framebuffer and the collision seen so far (R161). -/
structure Drawing where
  fb : Framebuffer
  collision : Bool
  deriving DecidableEq, Repr

/-- A set sprite bit over one cell: note a collision if the cell is 1, then XOR the cell with 1 (R161). -/
def Drawing.flip (d : Drawing) (px : Fin 64) (py : Fin 32) : Drawing :=
  { fb := d.fb.setPixel px py (!d.fb.pixel px py), collision := d.collision || d.fb.pixel px py }

/-- One row byte `b` from column origin `x0` on row `y`: column `col` is bit `7 - col` (R160; log 17), and coordinates wrap, never
clip (R161). -/
def drawRow (x0 y : Nat) (b : Byte) (d : Drawing) : Drawing :=
  (List.range 8).foldl
    (fun d col => if b.getLsbD (7 - col) then d.flip (Fin.ofNat 64 (x0 + col)) (Fin.ofNat 32 y) else d) d

/-- The rows of a sprite, row 0 first (R160, R161). -/
def drawRows (x0 : Nat) : Nat → List Byte → Drawing → Drawing
  | _, [], d => d
  | y, b :: bs, d => drawRows x0 (y + 1) bs (drawRow x0 y b d)

/-- The whole draw of `n` rows from `mem[I]` at origin `(V[x], V[y])`; `VF` is written once, after it (R161). -/
def State.drawSprite (s : State) (x y : RegIdx) (n : Nat) : State :=
  let d := drawRows (s.getV x).toNat (s.getV y).toNat (s.mem.readBytes s.i.toNat n) { fb := s.fb, collision := false }
  ({ s with fb := d.fb }).setV vF (flagByte d.collision)

/-- DRW Vx, Vy, n (R161): the range is checked only if `n` >= 1 (R55). -/
def execDrw (x y : RegIdx) (n : Nibble) (s : State) : Result :=
  if n = 0 then .next (s.drawSprite x y 0) else .next (s.guardRange n.toNat (s.drawSprite x y n.toNat))

end Sys2Proof.Machine
end

