-- ==== Sys2Proof/Machine/TimerMemory.lean ====
section
/-! DEFINITION. The meanings of 45_timers_memory.md. None writes `VF` as a flag. -/

namespace Sys2Proof.Machine

/-- LD Vx, DT (R180). -/
def execLdFromDT (x : RegIdx) (s : State) : Result := .next (s.setV x s.dt)

/-- LD DT, Vx (R181). -/
def execLdDT (x : RegIdx) (s : State) : Result := .next { s with dt := s.getV x }

/-- LD ST, Vx (R182). -/
def execLdST (x : RegIdx) (s : State) : Result := .next { s with st := s.getV x }

/-- ADD I, Vx: modulo 2^16, no flag, no bound (R183; log 21). -/
def execAddI (x : RegIdx) (s : State) : Result := .next (s.setI (s.i + zextByte (s.getV x)))

/-- LD F, Vx: `I <- V[x] * 5`, the whole of `V[x]` (R184). -/
def execLdF (x : RegIdx) (s : State) : Result := .next (s.setI (BitVec.ofNat 16 ((s.getV x).toNat * 5)))

/-- LD B, Vx: hundreds, tens, ones at `I`, `I + 1`, `I + 2`; `I` unchanged (R185). -/
def execLdB (x : RegIdx) (s : State) : Result :=
  .next (s.guardRange 3 (s.storeBytes s.i.toNat (decimalDigits (s.getV x))))

/-- LD [I], Vx: store `V[0]`..`V[x]` from `I` on, then `I <- I + x + 1` (R186). -/
def execStRegs (x : RegIdx) (s : State) : Result :=
  .next (s.guardRange (x.toNat + 1)
    ((s.storeBytes s.i.toNat (s.registersUpTo x)).setI (BitVec.ofNat 16 (s.i.toNat + x.toNat + 1))))

/-- LD Vx, [I]: load `V[0]`..`V[x]` from `I` on, then `I <- I + x + 1` (R187). -/
def execLdRegs (x : RegIdx) (s : State) : Result :=
  .next (s.guardRange (x.toNat + 1)
    ((s.loadRegisters s.i.toNat (x.toNat + 1)).setI (BitVec.ofNat 16 (s.i.toNat + x.toNat + 1))))

end Sys2Proof.Machine
end

