-- ==== Sys2Proof/Machine/Cycle.lean ====
section
/-! DEFINITION. The transactions of the block (00_scope.md R8): the engine cycle (30_encoding.md R90 to R93) and the transactions of the
other agents. -/

namespace Sys2Proof.Machine

/-- The word at `PC`, big-endian (R51, R91). The bound of R92 is already checked. -/
def State.fetchWord (s : State) : Word :=
  wordOfBytes (s.mem.readByte (BitVec.ofNat 12 s.pc.toNat)) (s.mem.readByte (BitVec.ofNat 12 (s.pc.toNat + 1)))

/-- `Execute(Unknown, w)` under a policy (R93). -/
def executeUnknown (policy : UnknownOpcodePolicy) (w : Word) (s : State) : Result :=
  match policy with
  | .reportAndSkip => .next (s.emit (.unknownOpcode w))
  | .fatal => .next (s.raise .unknownOpcode w)

/-- The cycle of a running engine (R90): the fetch bound (R92), fetch with the advance of `PC` (R91), decode, execute. -/
def fetchDecodeExecute (s : State) : Result :=
  if s.pc.toNat > fetchLimit then .next (s.raise .fetchOutOfBounds s.pc)
  else
    match decode s.fetchWord with
    | .instr i => exec i s.advancePc
    | .unknown w => executeUnknown hardware.unknownOpcodePolicy w s.advancePc

/-- `Cycle()` (R90). In `Halted` it does nothing (R214). -/
def cycle (s : State) : Result :=
  match s.status with
  | .halted _ _ => .next s
  | .waitingForKey r => .next (keyWaitPoll r s)
  | .running => fetchDecodeExecute s

/-- A timer's decrement, clamped at 0 (R225, R30). -/
def countDown (t : Byte) : Byte := if t.toNat > 0 then t - 1 else t

/-- `Tick()`: both timers, in every status (R225). -/
def tick (s : State) : State := { s with dt := countDown s.dt, st := countDown s.st }

/-- `SetKey(k, h)`: the edge of a key that was not held is latched (an edge latched before stays), then the level is written (R34). -/
def setKey (k : Key) (held : Bool) (s : State) : State :=
  { s with
    keyEdge := s.keyEdge.set k.val (s.keyEdge[k.val] || (held && !s.keyHeld[k.val]))
    keyHeld := s.keyHeld.set k.val held }

/-- `Reset()`, from any status (R240). The model's own counters and the schedule are no state of the block and go on (log 7). -/
def performReset (s : State) : State :=
  { State.reset with randomDraws := s.randomDraws, keyDraws := s.keyDraws, schedule := s.schedule }

/-- `Load(bytes, A)`: the check first, then the copy (R62). -/
def load (image : List Byte) (address : Nat) (s : State) : State :=
  if address + image.length > 4096 then { s with output := some (.load .oversizeImage) }
  else { s.storeBytes address image with output := some (.load .ok) }

/-- `ReadPixel(px, py)`: no state of the block changes (R31). -/
def readPixel (px : Fin 64) (py : Fin 32) (s : State) : State := { s with output := some (.pixel (s.fb.pixel px py)) }

/-- `SoundActive` = 1 iff `ST` != 0 (R227); the read changes no state of the block. -/
def readSound (s : State) : State := { s with output := some (.soundActive (s.st != 0)) }

/-- One transaction, whole (R57). -/
def perform (t : Transaction) (s : State) : Result :=
  match t with
  | .cycle => cycle s
  | .tick => .next (tick s)
  | .setKey k held => .next (setKey k held s)
  | .reset => .next (performReset s)
  | .load image address => .next (load image address s)
  | .readPixel px py => .next (readPixel px py s)
  | .readSound => .next (readSound s)

/-- The transaction that comes next in the order of R57: the oldest scheduled one, or `Cycle()` of the host loop (log 2). -/
def State.nextTransaction (s : State) : Transaction := s.schedule.headD .cycle

/-- The state as that transaction begins: it is off the schedule, and nothing is handed out yet (log 4). -/
def State.beginTransaction (s : State) : State := { s with schedule := s.schedule.tail, output := none }

/-- The boot sequence of R243, what the host performs before the first cycle: `Reset()`, then `Load(image, 0x200)` (log 3). -/
def bootSequence (image : List Byte) : List Transaction := [.reset, .load image pcReset.toNat]

/-- A state whose next step fetches at `s.pc` (at 0x200 if `s.pc` cannot be fetched): the engine runs and no other transaction comes
first. -/
def State.readyToFetch (s : State) : State :=
  { s with status := .running, schedule := [], pc := if s.pc.toNat > fetchLimit then pcReset else s.pc }

/-- `w` stored big-endian at `PC` (R51). -/
def State.placeWord (s : State) (w : Word) : State := s.storeBytes s.pc.toNat (bytesOfWord w)

end Sys2Proof.Machine
end

