-- ==== Sys2Proof/Machine/Step.lean ====
section
/-! DEFINITION. One step of the machine: one transaction, in the order the schedule gives (R57, R58). -/

namespace Sys2Proof.Machine

/-- One step: the next transaction, performed whole. From a state with an empty schedule it is `Cycle()` (R90). -/
def step (s : State) : Host.Outcome State Fault Refusal := perform s.nextTransaction s.beginTransaction

/-- `s` with the table word `w` stored where the next step fetches (log 27). -/
def State.withFetchWord (s : State) (nbits w : Nat) : State := s.readyToFetch.placeWord (tableWord nbits w)

end Sys2Proof.Machine
end

