-- ==== Sys2Proof/Safety.lean ====
section
/-! DEFINITION. The terms in which claims are made: the parts of the state, what it means that only some of them change, which
instructions the spec lists as writers of a part, the cells a sprite covers, and the invariants. -/

namespace Sys2Proof.Machine

/-- One part of the state (10_state.md R20, and the model's own four fields). -/
inductive Part where
  | v (r : RegIdx)
  | i
  | pc
  | stackEntry (j : Fin 16)
  | sp
  | status
  | keyEdge (k : Key)
  | dt
  | st
  | pixel (px : Fin 64) (py : Fin 32)
  | keyHeld (k : Key)
  | byte (a : Addr)
  | output
  | randomDraws
  | keyDraws
  | schedule
  deriving DecidableEq, Repr

/-- A part reads the same in both states. A byte of memory is read as the model reads it. -/
def Same (p : Part) (s t : State) : Prop :=
  match p with
  | .v r => t.getV r = s.getV r
  | .i => t.i = s.i
  | .pc => t.pc = s.pc
  | .stackEntry j => t.stack[j.val] = s.stack[j.val]
  | .sp => t.sp = s.sp
  | .status => t.status = s.status
  | .keyEdge k => t.keyEdge[k.val] = s.keyEdge[k.val]
  | .dt => t.dt = s.dt
  | .st => t.st = s.st
  | .pixel px py => t.fb.pixel px py = s.fb.pixel px py
  | .keyHeld k => t.keyHeld[k.val] = s.keyHeld[k.val]
  | .byte a => t.mem.readByte a = s.mem.readByte a
  | .output => t.output = s.output
  | .randomDraws => t.randomDraws = s.randomDraws
  | .keyDraws => t.keyDraws = s.keyDraws
  | .schedule => t.schedule = s.schedule

/-- From `s` to `t` every part reads the same, but for those `written` names. -/
def UnchangedExcept (s t : State) (written : Part → Prop) : Prop := ∀ p, ¬ written p → Same p s t

/-- `V[r]` is a register the instruction writes, as its destination or as the flag (R21, R22). -/
def writesRegister (i : Instr) (r : RegIdx) : Prop :=
  match i with
  | .ldImm x _ | .addImm x _ | .ldReg x _ | .rnd x _ | .ldFromDT x => r = x
  | .orReg x _ | .andReg x _ | .xorReg x _ | .addReg x _ | .subReg x _ | .shr x _ | .subnReg x _ | .shl x _ => r = x ∨ r = vF
  | .drw _ _ _ => r = vF
  | .ldRegs x => r.toNat ≤ x.toNat
  | .sys _ | .cls | .ret | .jp _ | .call _ | .seImm _ _ | .sneImm _ _ | .seReg _ _ | .sneReg _ _ | .ldI _ | .jpV0 _ | .skp _
  | .sknp _ | .ldK _ | .ldDT _ | .ldST _ | .addI _ | .ldF _ | .ldB _ | .stRegs _ => False

/-- The writers the spec lists for each part of the state: R21, R22 (V), R25 (I), R24 (PC), R28 (stack), R29 (SP), R35, R212 (status),
R33 (key_edge), R30 (DT, ST), R31 (framebuffer), R32 (key state), R26 (memory), R216 (reports), R12 (random source). -/
def listedWriter (p : Part) (i : Instr) : Prop :=
  match p with
  | .v r => writesRegister i r
  | .i => (∃ nnn, i = .ldI nnn) ∨ ∃ x, i = .addI x ∨ i = .ldF x ∨ i = .stRegs x ∨ i = .ldRegs x
  | .pc =>
    (∃ nnn, i = .jp nnn ∨ i = .call nnn ∨ i = .jpV0 nnn) ∨ i = .ret ∨ (∃ x nn, i = .seImm x nn ∨ i = .sneImm x nn) ∨
      (∃ x y, i = .seReg x y ∨ i = .sneReg x y) ∨ ∃ x, i = .skp x ∨ i = .sknp x
  | .stackEntry _ => ∃ nnn, i = .call nnn
  | .sp => (∃ nnn, i = .call nnn) ∨ i = .ret
  | .status =>
    (∃ nnn, i = .call nnn) ∨ i = .ret ∨ (∃ x y n, i = .drw x y n) ∨
      ∃ x, i = .skp x ∨ i = .sknp x ∨ i = .ldK x ∨ i = .ldB x ∨ i = .stRegs x ∨ i = .ldRegs x
  | .keyEdge _ => ∃ x, i = .ldK x
  | .dt => ∃ x, i = .ldDT x
  | .st => ∃ x, i = .ldST x
  | .pixel _ _ => i = .cls ∨ ∃ x y n, i = .drw x y n
  | .keyHeld _ => False
  | .byte _ => ∃ x, i = .ldB x ∨ i = .stRegs x
  | .output => ∃ nnn, i = .sys nnn
  | .randomDraws => ∃ x nn, i = .rnd x nn
  | .keyDraws => False
  | .schedule => False

/-- The address `I + k` of a data access (R53), for a range that the check of R55 has passed. -/
def State.dataAddr (s : State) (k : Nat) : Addr := BitVec.ofNat 12 (s.i.toNat + k)

/-- A set bit of the sprite of `n` rows at `mem[I]`, drawn at `(V[x], V[y])`, falls on the cell `(px, py)`: row `row`, column `col` is
bit `7 - col` of the row's byte, at `((V[x] + col) mod 64, (V[y] + row) mod 32)` (R160, R161). -/
def State.spriteLights (s : State) (x y : RegIdx) (n : Nat) (px : Fin 64) (py : Fin 32) : Prop :=
  ∃ row col, row < n ∧ col < 8 ∧ (s.mem.readByte (s.dataAddr row)).getLsbD (7 - col) = true ∧
    px.val = ((s.getV x).toNat + col) % 64 ∧ py.val = ((s.getV y).toNat + row) % 32

/-- INVARIANT: memory is in its canonical form (log 9). -/
def State.memoryCanonical (s : State) : Prop := s.mem.wf = true

/-- INVARIANT: `PC` holds at most 0x10FE, the largest value any rule can produce (R24), and a saved return address is at most 0x1000,
`PC` after the fetch of a CALL (R91, R103). -/
def State.pcBounded (s : State) : Prop := s.pc.toNat ≤ 0x10FE ∧ ∀ j : Fin 16, (s.stack[j.val]).toNat ≤ 0x1000

end Sys2Proof.Machine
end

