-- ==== Sys2Proof/Certificates/Slice0/Obligations.lean ====
section
/-! DEFINITION. The statements for the provers, from the numbered rules of spec/. In every statement about an instruction `s.pc` already
holds the instruction's address plus 2, as in the rules (R91). `UnchangedExcept s t written` is the frame: every part of the state reads
the same in `t` as in `s`, every byte of memory among them, but for those `written` names. -/

open Sys2Proof Sys2Proof.Machine

/-! ## Encoding -/

/-- Words of the spec's listing (R75) and of its decode table (95_test_vectors.md L2.1) decode to the instructions they stand for. -/
def Obligations.ListedWordsDecode : Prop :=
  decode 0x0123 = .instr (.sys 0x123) ∧ decode 0x00E0 = .instr .cls ∧ decode 0x00EE = .instr .ret ∧
  decode 0x1234 = .instr (.jp 0x234) ∧ decode 0x3342 = .instr (.seImm 3 0x42) ∧ decode 0x5120 = .instr (.seReg 1 2) ∧
  decode 0x5121 = .unknown 0x5121 ∧ decode 0x8276 = .instr (.shr 2 7) ∧ decode 0x800F = .unknown 0x800F ∧
  decode 0xB123 = .instr (.jpV0 0x123) ∧ decode 0xD015 = .instr (.drw 0 1 5) ∧ decode 0xE19E = .instr (.skp 1) ∧
  decode 0xF533 = .instr (.ldB 5) ∧ decode 0xF30A = .instr (.ldK 3) ∧ decode 0xF10B = .unknown 0xF10B

/-- Decoding an encoded well-formed instruction gives it back, with every operand (R71, R75, R77). -/
def Obligations.DecodeOfEncode : Prop :=
  ∀ i : Instr, i.wellFormed = true → decode (encode i) = .instr i

/-- A word that decodes to an instruction is that instruction's only word, and the instruction is well formed (R75, R77). -/
def Obligations.EncodeOfDecode : Prop :=
  ∀ (w : Word) (i : Instr), decode w = .instr i → i.wellFormed = true ∧ encode i = w

/-- The words rejected as `Unknown` are exactly those listed in R79, and a rejection names the word. -/
def Obligations.UnknownWordsAreThoseListed : Prop :=
  ∀ w w' : Word, decode w = .unknown w' ↔
    w' = w ∧
      (((fieldOp w = 0x5 ∨ fieldOp w = 0x9) ∧ fieldN w ≠ 0) ∨
        (fieldOp w = 0x8 ∧ fieldN w ∈ ([0x8, 0x9, 0xA, 0xB, 0xC, 0xD, 0xF] : List Nibble)) ∨
        (fieldOp w = 0xE ∧ fieldNn w ∉ ([0x9E, 0xA1] : List Byte)) ∨
        (fieldOp w = 0xF ∧ fieldNn w ∉ ([0x07, 0x0A, 0x15, 0x18, 0x1E, 0x29, 0x33, 0x55, 0x65] : List Byte)))

/-- The reading `LOOSE_SUBDECODE` = true, which this hardware does not take (R78, the spec's decision D6), differs in three arms only. -/
def Obligations.LooseDecodeDiffersInThreeArms : Prop :=
  ∀ w : Word, decodeWith true w =
    if fieldOp w = 0x0 then
      .instr (if fieldNn w = 0xE0 then .cls else if fieldNn w = 0xEE then .ret else .sys (fieldNnn w))
    else if fieldOp w = 0x5 then .instr (.seReg (fieldX w) (fieldY w))
    else if fieldOp w = 0x9 then .instr (.sneReg (fieldX w) (fieldY w))
    else decodeWith false w

/-! ## The engine cycle and the machine -/

/-- R91, R77: when the bytes at `PC` and `PC + 1`, combined big-endian, decode to an instruction, the step of a running engine is that
instruction's meaning, on the state whose `PC` is advanced by 2. Around it the model's step takes the transaction off the schedule and
clears the output of the transaction before (log 2, log 4). -/
def Obligations.StepRunsTheDecodedInstruction : Prop :=
  ∀ (s : State) (w : Word) (i : Instr),
    s.nextTransaction = .cycle → s.status = .running → s.pc.toNat ≤ 4094 →
    w.toNat = (s.mem.readByte (BitVec.ofNat 12 s.pc.toNat)).toNat * 256 +
      (s.mem.readByte (BitVec.ofNat 12 (s.pc.toNat + 1))).toNat →
    decode w = .instr i →
    step s = exec i { s with pc := s.pc + 2, output := none, schedule := s.schedule.tail }

/-- R93 under the policy this hardware takes (the spec's decision D7): an unknown word is reported and skipped; under the policy `fatal`
it halts. -/
def Obligations.UnknownWordIsReportedAndSkipped : Prop :=
  (∀ (s : State) (w : Word),
    s.nextTransaction = .cycle → s.status = .running → s.pc.toNat ≤ 4094 → decode s.fetchWord = .unknown w →
    ∃ t, step s = .next t ∧ t.pc = s.pc + 2 ∧ t.output = some (.report (.unknownOpcode s.fetchWord)) ∧
      t.schedule = s.schedule.tail ∧ UnchangedExcept s t (fun p => p = .pc ∨ p = .output ∨ p = .schedule)) ∧
  ∀ (s : State) (w : Word), ∃ t, executeUnknown .fatal w s = .next t ∧ t.status = .halted .unknownOpcode w ∧
    UnchangedExcept s t (fun p => p = .status)

/-- R92 (with the spec's decision D13): a running engine with `PC` above 4094 halts with `FetchOutOfBounds(PC)`, `PC` unchanged. -/
def Obligations.FetchPastMemoryHalts : Prop :=
  ∀ s : State, s.nextTransaction = .cycle → s.status = .running → s.pc.toNat > 4094 →
    ∃ t, step s = .next t ∧ t.status = .halted .fetchOutOfBounds s.pc ∧ t.output = none ∧ t.schedule = s.schedule.tail ∧
      UnchangedExcept s t (fun p => p = .status ∨ p = .output ∨ p = .schedule)

/-- R214 (the spec's decision D14): in `Halted` a cycle does nothing, and reports nothing. -/
def Obligations.HaltedCycleDoesNothing : Prop :=
  ∀ (s : State) (f : FatalCondition) (info : Word), s.nextTransaction = .cycle → s.status = .halted f info →
    ∃ t, step s = .next t ∧ t.output = none ∧ t.schedule = s.schedule.tail ∧
      UnchangedExcept s t (fun p => p = .output ∨ p = .schedule)

/-- R37: the transitions of the status, complete, for every transaction; and those that must happen. -/
def Obligations.StatusTransitionsAreThoseListed : Prop :=
  ∀ s t : State, step s = .next t →
    (t.status = s.status ∨
      (s.nextTransaction = .reset ∧ t.status = .running) ∨
      (s.nextTransaction = .cycle ∧ s.status = .running ∧ s.pc.toNat ≤ 4094 ∧
        ∃ x, decode s.fetchWord = .instr (.ldK x) ∧ t.status = .waitingForKey x) ∨
      (s.nextTransaction = .cycle ∧ (∃ r, s.status = .waitingForKey r) ∧ (∃ k : Key, s.keyEdge[k.val] = true) ∧
        t.status = .running) ∨
      (s.nextTransaction = .cycle ∧ s.status = .running ∧ ∃ f info, t.status = .halted f info)) ∧
    (s.nextTransaction = .reset → t.status = .running) ∧
    (∀ x, s.nextTransaction = .cycle → s.status = .running → s.pc.toNat ≤ 4094 → decode s.fetchWord = .instr (.ldK x) →
      t.status = .waitingForKey x) ∧
    (∀ r, s.nextTransaction = .cycle → s.status = .waitingForKey r → (∃ k : Key, s.keyEdge[k.val] = true) →
      t.status = .running)

/-- R211 (derived by the spec; its decision D13): the state left by a fatal condition is the state before the failing instruction, with
the status changed and, but for a failed fetch, `PC` advanced by 2. -/
def Obligations.FatalConditionsArePrecise : Prop :=
  ∀ (s t : State) (f : FatalCondition) (info : Word),
    s.nextTransaction = .cycle → s.status = .running → step s = .next t → t.status = .halted f info →
    t = { s with
      status := .halted f info
      pc := if f = .fetchOutOfBounds then s.pc else s.pc + 2
      output := none
      schedule := s.schedule.tail }

/-- R212, as far as an instruction raises it (conditions 4 and 5 and the codes are the spec's decisions D8, D10, D15): an instruction
halts a running engine only for the cause listed, and with the information listed. -/
def Obligations.InstructionsHaltOnlyForListedCauses : Prop :=
  ∀ (i : Instr) (s t : State) (f : FatalCondition) (info : Word),
    s.status = .running → exec i s = .next t → t.status = .halted f info →
    (f = .stackOverflow ∧ f.code = 2 ∧ info = s.pc ∧ (∃ nnn, i = .call nnn) ∧ s.sp.val = 16) ∨
    (f = .stackUnderflow ∧ f.code = 3 ∧ info = s.pc ∧ i = .ret ∧ s.sp.val = 0) ∨
    (f = .memoryOutOfBounds ∧ f.code = 4 ∧ info = s.i ∧
      ((∃ x y n, i = .drw x y n ∧ 1 ≤ n.toNat ∧ 0xFFF < s.i.toNat + n.toNat - 1) ∨
        (∃ x, i = .ldB x ∧ 0xFFF < s.i.toNat + 2) ∨
        (∃ x, (i = .stRegs x ∨ i = .ldRegs x) ∧ 0xFFF < s.i.toNat + x.toNat))) ∨
    (f = .keyIndexOutOfRange ∧ f.code = 5 ∧
      ∃ x, (i = .skp x ∨ i = .sknp x) ∧ 15 < (s.getV x).toNat ∧ info.toNat = (s.getV x).toNat)

/-- Every transaction completes: no state makes the step a fault or a refusal (R90, R210, R217; log 1). -/
def Obligations.EveryStepCompletes : Prop := ∀ s : State, ∃ t, step s = .next t

/-- Each part of the state changes only under the instructions that 10_state.md lists as its writers (sections 2 to 8 of it). -/
def Obligations.OnlyListedWritersWrite : Prop :=
  ∀ (i : Instr) (s t : State) (p : Part), exec i s = .next t → ¬ Same p s t → listedWriter p i

/-- INVARIANT of the model's memory: every step, whatever its transaction, keeps the canonical form, all addresses below 4096 (R50,
R26; log 9). -/
def Obligations.StepKeepsMemoryCanonical : Prop :=
  ∀ s t : State, s.memoryCanonical → step s = .next t → t.memoryCanonical

/-- INVARIANT: `PC` never exceeds 0x10FE and saved return addresses never exceed 0x1000, whatever the transaction (R24, R91, R103,
R105). -/
def Obligations.StepKeepsPcBounded : Prop :=
  ∀ s t : State, s.pcBounded → step s = .next t → t.pcBounded

/-- Both invariants hold at reset. -/
def Obligations.InvariantsAtReset : Prop := State.reset.memoryCanonical ∧ State.reset.pcBounded

/-! ## The transactions of the other agents -/

/-- R240 (from any status: the spec's decision D24; stack entries D20, latch D11): what `Reset()` leaves, whatever the state before;
of the glyph table, glyph 0, the one the source gives (R27). `State.reset` is that state. -/
def Obligations.ResetLeavesTheResetState : Prop :=
  ∀ s : State, s.nextTransaction = .reset →
    ∃ t, step s = .next t ∧ (∀ p, (p ≠ .randomDraws ∧ p ≠ .keyDraws ∧ p ≠ .schedule) → Same p State.reset t) ∧
      (∀ r, t.getV r = 0x00) ∧ t.i = 0x0000 ∧ t.pc = 0x0200 ∧ t.sp.val = 0 ∧ (∀ j : Fin 16, t.stack[j.val] = 0x0000) ∧
      t.dt = 0x00 ∧ t.st = 0x00 ∧ (∀ px py, t.fb.pixel px py = false) ∧
      (∀ k : Key, t.keyHeld[k.val] = false ∧ t.keyEdge[k.val] = false) ∧ t.status = .running ∧
      t.mem.readBytes 0 5 = [0xF0, 0x90, 0x90, 0x90, 0xF0] ∧ (∀ a : Addr, 0x050 ≤ a.toNat → t.mem.readByte a = 0x00) ∧
      t.output = none ∧ t.randomDraws = s.randomDraws ∧ t.keyDraws = s.keyDraws ∧ t.schedule = s.schedule.tail

/-- R62 (the check before the copy: the spec's decision D32): what `Load` does, and that a too long image leaves memory unchanged. -/
def Obligations.LoadCopiesTheImage : Prop :=
  ∀ (s : State) (image : List Byte) (address : Nat), s.nextTransaction = .load image address →
    (address + image.length ≤ 4096 →
      ∃ t, step s = .next t ∧ t.output = some (.load .ok) ∧ t.schedule = s.schedule.tail ∧
        (∀ j, j < image.length → some (t.mem.readByte (BitVec.ofNat 12 (address + j))) = image[j]?) ∧
        UnchangedExcept s t (fun p => p = .output ∨ p = .schedule ∨
          ∃ a : Addr, p = .byte a ∧ address ≤ a.toNat ∧ a.toNat < address + image.length)) ∧
    (4096 < address + image.length →
      ∃ t, step s = .next t ∧ t.output = some (.load .oversizeImage) ∧ t.schedule = s.schedule.tail ∧
        UnchangedExcept s t (fun p => p = .output ∨ p = .schedule))

/-- R225 (one tick for both, in every status: the spec's decision D31): each timer that is above 0 goes down by 1 and a timer at 0 stays
(truncated subtraction). -/
def Obligations.TickCountsBothTimersDown : Prop :=
  ∀ s : State, s.nextTransaction = .tick →
    ∃ t, step s = .next t ∧ t.dt.toNat = s.dt.toNat - 1 ∧ t.st.toNat = s.st.toNat - 1 ∧ t.output = none ∧
      t.schedule = s.schedule.tail ∧
      UnchangedExcept s t (fun p => p = .dt ∨ p = .st ∨ p = .output ∨ p = .schedule)

/-- R34 (the latch is the spec's decision D11): `SetKey` writes the level and latches the edge of a key that was not held. -/
def Obligations.SetKeyLatchesThePress : Prop :=
  ∀ (s : State) (k : Key) (held : Bool), s.nextTransaction = .setKey k held →
    ∃ t, step s = .next t ∧ t.keyHeld[k.val] = held ∧
      (t.keyEdge[k.val] = true ↔ s.keyEdge[k.val] = true ∨ (held = true ∧ s.keyHeld[k.val] = false)) ∧
      t.output = none ∧ t.schedule = s.schedule.tail ∧
      UnchangedExcept s t (fun p => p = .keyHeld k ∨ p = .keyEdge k ∨ p = .output ∨ p = .schedule)

/-- R31 and R227: the renderer's and the audio collaborator's reads hand out the cell and the level `ST != 0`, and change no state of
the block. -/
def Obligations.OutsideReadsChangeNothing : Prop :=
  (∀ (s : State) (px : Fin 64) (py : Fin 32), s.nextTransaction = .readPixel px py →
    ∃ t, step s = .next t ∧ t.output = some (.pixel (s.fb.pixel px py)) ∧ t.schedule = s.schedule.tail ∧
      UnchangedExcept s t (fun p => p = .output ∨ p = .schedule)) ∧
  ∀ s : State, s.nextTransaction = .readSound →
    ∃ t, step s = .next t ∧ (∃ active, t.output = some (.soundActive active) ∧ (active = true ↔ s.st.toNat ≠ 0)) ∧
      t.schedule = s.schedule.tail ∧ UnchangedExcept s t (fun p => p = .output ∨ p = .schedule)

/-! ## The key wait -/

/-- R200 (the latch is the spec's decision D11): `Fx0A` clears the press-edge latch and waits; `V[x]` is not written. -/
def Obligations.KeyWaitBegins : Prop :=
  ∀ (x : RegIdx) (s : State),
    ∃ t, exec (.ldK x) s = .next t ∧ t.status = .waitingForKey x ∧ (∀ k : Key, t.keyEdge[k.val] = false) ∧
      UnchangedExcept s t (fun p => p = .status ∨ ∃ k, p = .keyEdge k)

/-- R201, R202 (the spec's decision D11): a waiting cycle changes nothing until a press is latched; then `V[r]` receives a latched key,
the latch is cleared, the engine runs, and nothing is fetched. -/
def Obligations.KeyWaitEndsWithALatchedPress : Prop :=
  ∀ (s : State) (r : RegIdx), s.nextTransaction = .cycle → s.status = .waitingForKey r →
    ((∀ k : Key, s.keyEdge[k.val] = false) →
      ∃ t, step s = .next t ∧ t.output = none ∧ t.schedule = s.schedule.tail ∧
        UnchangedExcept s t (fun p => p = .output ∨ p = .schedule)) ∧
    ((∃ k : Key, s.keyEdge[k.val] = true) →
      ∃ (t : State) (k : Key), step s = .next t ∧ s.keyEdge[k.val] = true ∧ (t.getV r).toNat = k.val ∧ t.status = .running ∧
        (∀ j : Key, t.keyEdge[j.val] = false) ∧ t.output = none ∧ t.schedule = s.schedule.tail ∧
        UnchangedExcept s t (fun p => p = .v r ∨ p = .status ∨ (∃ j, p = .keyEdge j) ∨ p = .output ∨ p = .keyDraws ∨
          p = .schedule))

/-- R204 (the draw is the spec's decision D12): the key selected is always a latched one, every latched key is selected by some draw,
and a single press is the one selected. -/
def Obligations.SelectKeyDrawsAnyLatchedKey : Prop :=
  ∀ edge : Vector Bool 16, (∃ k : Key, edge[k.val] = true) →
    (∀ draw, edge[(selectKey edge draw).val] = true) ∧
    (∀ k : Key, edge[k.val] = true → ∃ draw, selectKey edge draw = k) ∧
    (∀ k : Key, (∀ j : Key, edge[j.val] = true ↔ j = k) → ∀ draw, selectKey edge draw = k)

/-! ## Control flow -/

/-- R100: the words of family 0 but 0x00E0 and 0x00EE are `SYS nnn`, which reports its word and changes nothing else. (The word the report
carries is `nnn` under the family nibble 0.) -/
def Obligations.SysIsReportedAndIgnored : Prop :=
  (∀ w : Word, fieldOp w = 0x0 → w ≠ 0x00E0 → w ≠ 0x00EE → decode w = .instr (.sys (fieldNnn w)) ∧ encode (.sys (fieldNnn w)) = w) ∧
  ∀ (nnn : Addr) (s : State),
    ∃ t, exec (.sys nnn) s = .next t ∧ t.output = some (.report (.ignoredMachineCall (encode (.sys nnn)))) ∧
      UnchangedExcept s t (fun p => p = .output)

/-- R101: every cell 0, nothing else changed. -/
def Obligations.ClsClearsTheFramebuffer : Prop :=
  ∀ s : State, ∃ t, exec .cls s = .next t ∧ (∀ px py, t.fb.pixel px py = false) ∧
    UnchangedExcept s t (fun p => ∃ px py, p = .pixel px py)

/-- R102: `PC <- zext_16(nnn)`. -/
def Obligations.JpSetsThePc : Prop :=
  ∀ (nnn : Addr) (s : State), ∃ t, exec (.jp nnn) s = .next t ∧ t.pc.toNat = nnn.toNat ∧ UnchangedExcept s t (fun p => p = .pc)

/-- R103: CALL saves `PC` in `stack[SP]`, increments `SP` and jumps; with `SP` = 16 it halts with `StackOverflow(PC)` and keeps `stack`,
`SP` and `PC`. -/
def Obligations.CallPushesTheReturnAddress : Prop :=
  ∀ (nnn : Addr) (s : State),
    (s.sp.val < 16 →
      ∃ t, exec (.call nnn) s = .next t ∧ (∀ j : Fin 16, j.val = s.sp.val → t.stack[j.val] = s.pc) ∧ t.sp.val = s.sp.val + 1 ∧
        t.pc.toNat = nnn.toNat ∧
        UnchangedExcept s t (fun p => p = .pc ∨ p = .sp ∨ ∃ j, p = .stackEntry j ∧ j.val = s.sp.val)) ∧
    (s.sp.val = 16 →
      ∃ t, exec (.call nnn) s = .next t ∧ t.status = .halted .stackOverflow s.pc ∧ UnchangedExcept s t (fun p => p = .status))

/-- R104: RET decrements `SP` and takes `PC` from `stack[SP]`, which keeps its value; with `SP` = 0 it halts with `StackUnderflow(PC)`. -/
def Obligations.RetPopsTheReturnAddress : Prop :=
  ∀ s : State,
    (0 < s.sp.val →
      ∃ t, exec .ret s = .next t ∧ t.sp.val + 1 = s.sp.val ∧ (∀ j : Fin 16, j.val = t.sp.val → t.pc = s.stack[j.val]) ∧
        UnchangedExcept s t (fun p => p = .pc ∨ p = .sp)) ∧
    (s.sp.val = 0 →
      ∃ t, exec .ret s = .next t ∧ t.status = .halted .stackUnderflow s.pc ∧ UnchangedExcept s t (fun p => p = .status))

/-- R105: `PC <- zext_16(nnn) + V[0]`, never narrowed. -/
def Obligations.JpV0AddsV0Unnarrowed : Prop :=
  ∀ (nnn : Addr) (s : State),
    ∃ t, exec (.jpV0 nnn) s = .next t ∧ t.pc.toNat = nnn.toNat + (s.getV 0).toNat ∧ UnchangedExcept s t (fun p => p = .pc)

/-! ## Skips -/

/-- R120. -/
def Obligations.SeImmSkipsIfEqual : Prop :=
  ∀ (x : RegIdx) (nn : Byte) (s : State), ∃ t, exec (.seImm x nn) s = .next t ∧
    t.pc = (if s.getV x = nn then s.pc + 2 else s.pc) ∧ UnchangedExcept s t (fun p => p = .pc)

/-- R121. -/
def Obligations.SneImmSkipsIfDifferent : Prop :=
  ∀ (x : RegIdx) (nn : Byte) (s : State), ∃ t, exec (.sneImm x nn) s = .next t ∧
    t.pc = (if s.getV x ≠ nn then s.pc + 2 else s.pc) ∧ UnchangedExcept s t (fun p => p = .pc)

/-- R122; the words `5xyN` with N != 0 are not this instruction. -/
def Obligations.SeRegSkipsIfEqual : Prop :=
  (∀ (x y : RegIdx) (s : State), ∃ t, exec (.seReg x y) s = .next t ∧
    t.pc = (if s.getV x = s.getV y then s.pc + 2 else s.pc) ∧ UnchangedExcept s t (fun p => p = .pc)) ∧
  ∀ w : Word, fieldOp w = 0x5 → fieldN w ≠ 0 → decode w = .unknown w

/-- R123; the words `9xyN` with N != 0 are not this instruction. -/
def Obligations.SneRegSkipsIfDifferent : Prop :=
  (∀ (x y : RegIdx) (s : State), ∃ t, exec (.sneReg x y) s = .next t ∧
    t.pc = (if s.getV x ≠ s.getV y then s.pc + 2 else s.pc) ∧ UnchangedExcept s t (fun p => p = .pc)) ∧
  ∀ w : Word, fieldOp w = 0x9 → fieldN w ≠ 0 → decode w = .unknown w

/-! ## Assignment and ALU -/

/-- R138. -/
def Obligations.LdImmLoadsTheByte : Prop :=
  ∀ (x : RegIdx) (nn : Byte) (s : State), ∃ t, exec (.ldImm x nn) s = .next t ∧ t.getV x = nn ∧
    UnchangedExcept s t (fun p => p = .v x)

/-- R139: the sum wraps modulo 256 and no flag is written: `VF` changes only as the destination. -/
def Obligations.AddImmWrapsWithoutFlag : Prop :=
  ∀ (x : RegIdx) (nn : Byte) (s : State), ∃ t, exec (.addImm x nn) s = .next t ∧
    (t.getV x).toNat = ((s.getV x).toNat + nn.toNat) % 256 ∧ UnchangedExcept s t (fun p => p = .v x)

/-- R141. -/
def Obligations.LdRegCopies : Prop :=
  ∀ (x y : RegIdx) (s : State), ∃ t, exec (.ldReg x y) s = .next t ∧ t.getV x = s.getV y ∧
    UnchangedExcept s t (fun p => p = .v x)

/-- R142, R143, R144 with the spec's decisions D5 (`VF` is cleared), D4 (with `x` = 0xF it ends 0) and D3 (operands read first). -/
def Obligations.LogicOpsClearVF : Prop :=
  ∀ (x y : RegIdx) (s : State),
    (∃ t, exec (.orReg x y) s = .next t ∧ t.getV vF = 0 ∧ (x ≠ vF → t.getV x = s.getV x ||| s.getV y) ∧
      UnchangedExcept s t (fun p => p = .v x ∨ p = .v vF)) ∧
    (∃ t, exec (.andReg x y) s = .next t ∧ t.getV vF = 0 ∧ (x ≠ vF → t.getV x = s.getV x &&& s.getV y) ∧
      UnchangedExcept s t (fun p => p = .v x ∨ p = .v vF)) ∧
    (∃ t, exec (.xorReg x y) s = .next t ∧ t.getV vF = 0 ∧ (x ≠ vF → t.getV x = s.getV x ^^^ s.getV y) ∧
      UnchangedExcept s t (fun p => p = .v x ∨ p = .v vF))

/-- R145 with the spec's decisions D3 (operands read before the flag is written, `y` = 0xF) and D4 (with `x` = 0xF the sum remains). -/
def Obligations.AddRegSetsCarry : Prop :=
  ∀ (x y : RegIdx) (s : State), ∃ t, exec (.addReg x y) s = .next t ∧
    (t.getV x).toNat = ((s.getV x).toNat + (s.getV y).toNat) % 256 ∧
    (x ≠ vF → (t.getV vF).toNat = if (s.getV x).toNat + (s.getV y).toNat > 255 then 1 else 0) ∧
    UnchangedExcept s t (fun p => p = .v x ∨ p = .v vF)

/-- R146 with the spec's decisions D3 and D4. -/
def Obligations.SubRegSetsNoBorrow : Prop :=
  ∀ (x y : RegIdx) (s : State), ∃ t, exec (.subReg x y) s = .next t ∧
    (t.getV x).toNat = ((s.getV x).toNat + 256 - (s.getV y).toNat) % 256 ∧
    (x ≠ vF → (t.getV vF).toNat = if (s.getV x).toNat ≥ (s.getV y).toNat then 1 else 0) ∧
    UnchangedExcept s t (fun p => p = .v x ∨ p = .v vF)

/-- R147, R134 with the spec's decision D4: the result and the bit shifted out, the same for every `y`. -/
def Obligations.ShrShiftsOutTheLowBit : Prop :=
  ∀ (x y : RegIdx) (s : State), ∃ t, exec (.shr x y) s = .next t ∧
    (t.getV x).toNat = (s.getV x).toNat / 2 ∧ (x ≠ vF → (t.getV vF).toNat = (s.getV x).toNat % 2) ∧
    UnchangedExcept s t (fun p => p = .v x ∨ p = .v vF)

/-- R148 with the spec's decisions D3 and D4. -/
def Obligations.SubnRegSetsNoBorrow : Prop :=
  ∀ (x y : RegIdx) (s : State), ∃ t, exec (.subnReg x y) s = .next t ∧
    (t.getV x).toNat = ((s.getV y).toNat + 256 - (s.getV x).toNat) % 256 ∧
    (x ≠ vF → (t.getV vF).toNat = if (s.getV y).toNat ≥ (s.getV x).toNat then 1 else 0) ∧
    UnchangedExcept s t (fun p => p = .v x ∨ p = .v vF)

/-- R149, R134 with the spec's decision D4: the result and the bit shifted out, the same for every `y`. -/
def Obligations.ShlShiftsOutTheHighBit : Prop :=
  ∀ (x y : RegIdx) (s : State), ∃ t, exec (.shl x y) s = .next t ∧
    (t.getV x).toNat = (s.getV x).toNat * 2 % 256 ∧ (x ≠ vF → (t.getV vF).toNat = (s.getV x).toNat / 128) ∧
    UnchangedExcept s t (fun p => p = .v x ∨ p = .v vF)

/-- R150. -/
def Obligations.LdISetsTheIndex : Prop :=
  ∀ (nnn : Addr) (s : State), ∃ t, exec (.ldI nnn) s = .next t ∧ t.i.toNat = nnn.toNat ∧ UnchangedExcept s t (fun p => p = .i)

/-- R151 (the draw is the spec's decision D25; the byte is a free value, log 5): one call of the random source, and no bit outside the
mask `nn`. -/
def Obligations.RndMasksOneDraw : Prop :=
  ∀ (x : RegIdx) (nn : Byte) (s : State), ∃ t, exec (.rnd x nn) s = .next t ∧
    (∀ b, b < 8 → (t.getV x).getLsbD b = ((Config.randomByte s.randomDraws).getLsbD b && nn.getLsbD b)) ∧
    t.randomDraws = s.randomDraws + 1 ∧ UnchangedExcept s t (fun p => p = .v x ∨ p = .randomDraws)

/-! ## Sprite draw -/

/-- R161, R160 (bit order: the spec's decision D18, from general knowledge, log 17; range: D8): a draw whose range lies in memory, or with
`n` = 0, XORs exactly the cells under a set sprite bit, with toroidal wrap, and `VF` says whether a lit cell was turned off. -/
def Obligations.DrawXorsTheSpriteCells : Prop :=
  ∀ (x y : RegIdx) (n : Nibble) (s : State), (n.toNat = 0 ∨ s.i.toNat + n.toNat - 1 ≤ 0xFFF) →
    ∃ t, exec (.drw x y n) s = .next t ∧
      (∀ px py, s.spriteLights x y n.toNat px py → t.fb.pixel px py = !s.fb.pixel px py) ∧
      (∀ px py, ¬ s.spriteLights x y n.toNat px py → t.fb.pixel px py = s.fb.pixel px py) ∧
      ((∃ px py, s.spriteLights x y n.toNat px py ∧ s.fb.pixel px py = true) → t.getV vF = 1) ∧
      ((∀ px py, s.spriteLights x y n.toNat px py → s.fb.pixel px py = false) → t.getV vF = 0) ∧
      UnchangedExcept s t (fun p => p = .v vF ∨ ∃ px py, p = .pixel px py)

/-- R161, R55 (the fault is the spec's decision D8, log 14): a draw whose range passes 0xFFF halts with `MemoryOutOfBounds(I)`; no cell
and no register changes. -/
def Obligations.DrawPastMemoryHalts : Prop :=
  ∀ (x y : RegIdx) (n : Nibble) (s : State), 1 ≤ n.toNat → 0xFFF < s.i.toNat + n.toNat - 1 →
    ∃ t, exec (.drw x y n) s = .next t ∧ t.status = .halted .memoryOutOfBounds s.i ∧ UnchangedExcept s t (fun p => p = .status)

/-! ## Keyboard -/

/-- R170 (an index above 15 is fatal by the spec's decision D10, log 15). -/
def Obligations.SkpSkipsIfHeld : Prop :=
  ∀ (x : RegIdx) (s : State),
    (∀ k : Key, k.val = (s.getV x).toNat →
      ∃ t, exec (.skp x) s = .next t ∧ t.pc = (if s.keyHeld[k.val] = true then s.pc + 2 else s.pc) ∧
        UnchangedExcept s t (fun p => p = .pc)) ∧
    (15 < (s.getV x).toNat →
      ∃ t info, exec (.skp x) s = .next t ∧ t.status = .halted .keyIndexOutOfRange info ∧ info.toNat = (s.getV x).toNat ∧
        UnchangedExcept s t (fun p => p = .status))

/-- R171 (an index above 15 is fatal by the spec's decision D10, log 15). -/
def Obligations.SknpSkipsIfNotHeld : Prop :=
  ∀ (x : RegIdx) (s : State),
    (∀ k : Key, k.val = (s.getV x).toNat →
      ∃ t, exec (.sknp x) s = .next t ∧ t.pc = (if s.keyHeld[k.val] = false then s.pc + 2 else s.pc) ∧
        UnchangedExcept s t (fun p => p = .pc)) ∧
    (15 < (s.getV x).toNat →
      ∃ t info, exec (.sknp x) s = .next t ∧ t.status = .halted .keyIndexOutOfRange info ∧ info.toNat = (s.getV x).toNat ∧
        UnchangedExcept s t (fun p => p = .status))

/-! ## Timers, index, memory -/

/-- R180. -/
def Obligations.LdFromDTReadsTheDelayTimer : Prop :=
  ∀ (x : RegIdx) (s : State), ∃ t, exec (.ldFromDT x) s = .next t ∧ t.getV x = s.dt ∧ UnchangedExcept s t (fun p => p = .v x)

/-- R181. -/
def Obligations.LdDTWritesTheDelayTimer : Prop :=
  ∀ (x : RegIdx) (s : State), ∃ t, exec (.ldDT x) s = .next t ∧ t.dt = s.getV x ∧ UnchangedExcept s t (fun p => p = .dt)

/-- R182. -/
def Obligations.LdSTWritesTheSoundTimer : Prop :=
  ∀ (x : RegIdx) (s : State), ∃ t, exec (.ldST x) s = .next t ∧ t.st = s.getV x ∧ UnchangedExcept s t (fun p => p = .st)

/-- R183 (the reduction modulo 2^16 is the spec's decision D9, log 21): no flag, no bound. -/
def Obligations.AddIWrapsAtSixteenBits : Prop :=
  ∀ (x : RegIdx) (s : State), ∃ t, exec (.addI x) s = .next t ∧ t.i.toNat = (s.i.toNat + (s.getV x).toNat) % 65536 ∧
    UnchangedExcept s t (fun p => p = .i)

/-- R184: the whole of `V[x]`, no mask. -/
def Obligations.LdFPointsAtTheGlyph : Prop :=
  ∀ (x : RegIdx) (s : State), ∃ t, exec (.ldF x) s = .next t ∧ t.i.toNat = (s.getV x).toNat * 5 ∧
    UnchangedExcept s t (fun p => p = .i)

/-- R185 (the fault is the spec's decision D8, log 14): hundreds, tens and ones at `I`, `I + 1`, `I + 2`, `I` unchanged; a range past
0xFFF halts and writes nothing. -/
def Obligations.BcdStoresThreeDigits : Prop :=
  ∀ (x : RegIdx) (s : State),
    (s.i.toNat + 2 ≤ 0xFFF →
      ∃ t, exec (.ldB x) s = .next t ∧ (t.mem.readByte (s.dataAddr 0)).toNat = (s.getV x).toNat / 100 ∧
        (t.mem.readByte (s.dataAddr 1)).toNat = (s.getV x).toNat / 10 % 10 ∧
        (t.mem.readByte (s.dataAddr 2)).toNat = (s.getV x).toNat % 10 ∧
        UnchangedExcept s t (fun p => ∃ a : Addr, p = .byte a ∧ s.i.toNat ≤ a.toNat ∧ a.toNat ≤ s.i.toNat + 2)) ∧
    (0xFFF < s.i.toNat + 2 →
      ∃ t, exec (.ldB x) s = .next t ∧ t.status = .halted .memoryOutOfBounds s.i ∧ UnchangedExcept s t (fun p => p = .status))

/-- R186 (the fault is the spec's decision D8, log 14): `V[0]`..`V[x]` at `I`..`I + x`, then `I <- I + x + 1`; a range past 0xFFF halts,
writes nothing and keeps `I`. -/
def Obligations.StoreRegistersWritesTheBlock : Prop :=
  ∀ (x : RegIdx) (s : State),
    (s.i.toNat + x.toNat ≤ 0xFFF →
      ∃ t, exec (.stRegs x) s = .next t ∧
        (∀ r : RegIdx, r.toNat ≤ x.toNat → t.mem.readByte (s.dataAddr r.toNat) = s.getV r) ∧
        t.i.toNat = s.i.toNat + x.toNat + 1 ∧
        UnchangedExcept s t (fun p => p = .i ∨
          ∃ a : Addr, p = .byte a ∧ s.i.toNat ≤ a.toNat ∧ a.toNat ≤ s.i.toNat + x.toNat)) ∧
    (0xFFF < s.i.toNat + x.toNat →
      ∃ t, exec (.stRegs x) s = .next t ∧ t.status = .halted .memoryOutOfBounds s.i ∧ UnchangedExcept s t (fun p => p = .status))

/-- R187 (the fault is the spec's decision D8, log 14): `V[0]`..`V[x]` from `I`..`I + x`, then `I <- I + x + 1`; a range past 0xFFF halts,
writes no register and keeps `I`. -/
def Obligations.LoadRegistersReadsTheBlock : Prop :=
  ∀ (x : RegIdx) (s : State),
    (s.i.toNat + x.toNat ≤ 0xFFF →
      ∃ t, exec (.ldRegs x) s = .next t ∧
        (∀ r : RegIdx, r.toNat ≤ x.toNat → t.getV r = s.mem.readByte (s.dataAddr r.toNat)) ∧
        t.i.toNat = s.i.toNat + x.toNat + 1 ∧
        UnchangedExcept s t (fun p => p = .i ∨ ∃ r : RegIdx, p = .v r ∧ r.toNat ≤ x.toNat)) ∧
    (0xFFF < s.i.toNat + x.toNat →
      ∃ t, exec (.ldRegs x) s = .next t ∧ t.status = .halted .memoryOutOfBounds s.i ∧ UnchangedExcept s t (fun p => p = .status))
end

