-- ==== Sys2Proof/Laws/Decode.lean ====
section
/-! SUPPORT. The fields of an assembled word (30_encoding.md R71), and a word as the assembly of its fields. -/

namespace Sys2Proof

section fields
variable (op x y n : Nibble) (nn : Byte) (nnn : Addr) (w : Word)

@[simp] theorem fieldOp_wordNnn : fieldOp (wordNnn op nnn) = op := by
  simp only [fieldOp, wordNnn]; ext i hi; simp; grind
@[simp] theorem fieldNnn_wordNnn : fieldNnn (wordNnn op nnn) = nnn := by
  simp only [fieldNnn, wordNnn]; ext i hi; simp; grind

@[simp] theorem fieldOp_wordXnn : fieldOp (wordXnn op x nn) = op := by
  simp only [fieldOp, wordXnn]; ext i hi; simp; grind
@[simp] theorem fieldX_wordXnn : fieldX (wordXnn op x nn) = x := by
  simp only [fieldX, wordXnn]; ext i hi; simp; grind
@[simp] theorem fieldNn_wordXnn : fieldNn (wordXnn op x nn) = nn := by
  simp only [fieldNn, wordXnn]; ext i hi; simp; grind

@[simp] theorem fieldOp_wordXyn : fieldOp (wordXyn op x y n) = op := by
  simp only [fieldOp, wordXyn]; ext i hi; simp; grind
@[simp] theorem fieldX_wordXyn : fieldX (wordXyn op x y n) = x := by
  simp only [fieldX, wordXyn]; ext i hi; simp; grind
@[simp] theorem fieldY_wordXyn : fieldY (wordXyn op x y n) = y := by
  simp only [fieldY, wordXyn]; ext i hi; simp; grind
@[simp] theorem fieldN_wordXyn : fieldN (wordXyn op x y n) = n := by
  simp only [fieldN, wordXyn]; ext i hi; simp; grind

theorem wordNnn_fields : wordNnn (fieldOp w) (fieldNnn w) = w := by
  simp only [fieldOp, fieldNnn, wordNnn]; ext i hi; simp; grind
theorem wordXnn_fields : wordXnn (fieldOp w) (fieldX w) (fieldNn w) = w := by
  simp only [fieldOp, fieldX, fieldNn, wordXnn]; ext i hi; simp; grind
theorem wordXyn_fields : wordXyn (fieldOp w) (fieldX w) (fieldY w) (fieldN w) = w := by
  simp only [fieldOp, fieldX, fieldY, fieldN, wordXyn]; ext i hi; simp; grind

end fields

/-- Two bytes laid out big-endian make the word again (R51). -/
theorem wordOfBytes_bytesOfWord (w : Word) : wordOfBytes (w.extractLsb' 8 8) (w.extractLsb' 0 8) = w := by
  simp only [wordOfBytes]; ext i hi; simp; grind

/-- Big-endian (R51): the byte at the lower address counts 256 times. -/
theorem toNat_wordOfBytes (hi lo : Byte) : (wordOfBytes hi lo).toNat = hi.toNat * 256 + lo.toNat := by
  have h : lo.toNat < 2 ^ 8 := lo.isLt
  rw [wordOfBytes, BitVec.toNat_append, ← Nat.shiftLeft_add_eq_or_of_lt h, Nat.shiftLeft_eq]

/-- This hardware decodes strictly (R77). -/
theorem decode_eq (w : Word) : decode w = decodeWith false w := rfl

/-! The decoder by family (R76): the arm of each value of `op`. -/

section families
variable {w : Word} (l : Bool)

theorem decodeWith_op0 (h : fieldOp w = 0x0) : decodeWith l w = .instr (decodeSystem l w) := by
  simp only [decodeWith, h]; rfl
theorem decodeWith_op1 (h : fieldOp w = 0x1) : decodeWith l w = .instr (.jp (fieldNnn w)) := by
  simp only [decodeWith, h]; rfl
theorem decodeWith_op2 (h : fieldOp w = 0x2) : decodeWith l w = .instr (.call (fieldNnn w)) := by
  simp only [decodeWith, h]; rfl
theorem decodeWith_op3 (h : fieldOp w = 0x3) : decodeWith l w = .instr (.seImm (fieldX w) (fieldNn w)) := by
  simp only [decodeWith, h]; rfl
theorem decodeWith_op4 (h : fieldOp w = 0x4) : decodeWith l w = .instr (.sneImm (fieldX w) (fieldNn w)) := by
  simp only [decodeWith, h]; rfl
theorem decodeWith_op5 (h : fieldOp w = 0x5) : decodeWith l w = if fieldN w = 0x0 ∨ l = true then .instr (.seReg (fieldX w) (fieldY w)) else .unknown w := by
  simp only [decodeWith, h]; rfl
theorem decodeWith_op6 (h : fieldOp w = 0x6) : decodeWith l w = .instr (.ldImm (fieldX w) (fieldNn w)) := by
  simp only [decodeWith, h]; rfl
theorem decodeWith_op7 (h : fieldOp w = 0x7) : decodeWith l w = .instr (.addImm (fieldX w) (fieldNn w)) := by
  simp only [decodeWith, h]; rfl
theorem decodeWith_op8 (h : fieldOp w = 0x8) : decodeWith l w = decodeAlu w := by
  simp only [decodeWith, h]; rfl
theorem decodeWith_op9 (h : fieldOp w = 0x9) : decodeWith l w = if fieldN w = 0x0 ∨ l = true then .instr (.sneReg (fieldX w) (fieldY w)) else .unknown w := by
  simp only [decodeWith, h]; rfl
theorem decodeWith_opA (h : fieldOp w = 0xA) : decodeWith l w = .instr (.ldI (fieldNnn w)) := by
  simp only [decodeWith, h]; rfl
theorem decodeWith_opB (h : fieldOp w = 0xB) : decodeWith l w = .instr (.jpV0 (fieldNnn w)) := by
  simp only [decodeWith, h]; rfl
theorem decodeWith_opC (h : fieldOp w = 0xC) : decodeWith l w = .instr (.rnd (fieldX w) (fieldNn w)) := by
  simp only [decodeWith, h]; rfl
theorem decodeWith_opD (h : fieldOp w = 0xD) : decodeWith l w = .instr (.drw (fieldX w) (fieldY w) (fieldN w)) := by
  simp only [decodeWith, h]; rfl
theorem decodeWith_opE (h : fieldOp w = 0xE) : decodeWith l w = decodeKey w := by
  simp only [decodeWith, h]; rfl
theorem decodeWith_opF (h : fieldOp w = 0xF) : decodeWith l w = decodeMisc w := by
  simp only [decodeWith, h]; rfl

/-- All sixteen values of `op` are families (R74). -/
theorem fieldOp_cases (w : Word) :
    fieldOp w = 0x0 ∨ fieldOp w = 0x1 ∨ fieldOp w = 0x2 ∨ fieldOp w = 0x3 ∨ fieldOp w = 0x4 ∨ fieldOp w = 0x5 ∨ fieldOp w = 0x6 ∨
      fieldOp w = 0x7 ∨ fieldOp w = 0x8 ∨ fieldOp w = 0x9 ∨ fieldOp w = 0xA ∨ fieldOp w = 0xB ∨ fieldOp w = 0xC ∨ fieldOp w = 0xD ∨
      fieldOp w = 0xE ∨ fieldOp w = 0xF := by
  generalize fieldOp w = a
  revert a
  decide

end families

/-! What the family decoders answer: an instruction whose encoding is the word, or the word itself. -/

theorem encode_of_decodeSystem {w : Word} (hop : fieldOp w = 0x0) :
    (decodeSystem false w).wellFormed = true ∧ encode (decodeSystem false w) = w := by
  have hn := wordNnn_fields w
  rw [hop] at hn
  unfold decodeSystem
  simp only [Bool.false_eq_true, false_and, or_false]
  split_ifs with h1 h2
  · exact ⟨rfl, h1.symm⟩
  · exact ⟨rfl, h2.symm⟩
  · refine ⟨?_, hn⟩
    simp only [Instr.wellFormed, Bool.and_eq_true, bne_iff_ne, ne_eq]
    exact ⟨fun e => h1 (by rw [← hn, e]; rfl), fun e => h2 (by rw [← hn, e]; rfl)⟩

theorem encode_of_decodeAlu {w : Word} {i : Instr} (hop : fieldOp w = 0x8) (h : decodeAlu w = .instr i) :
    i.wellFormed = true ∧ encode i = w := by
  have hy := wordXyn_fields w
  unfold decodeAlu at h
  split_ifs at h
  all_goals
    simp only [Decoded.instr.injEq] at h
    subst h
    simp_all [encode, Instr.wellFormed]

theorem encode_of_decodeKey {w : Word} {i : Instr} (hop : fieldOp w = 0xE) (h : decodeKey w = .instr i) :
    i.wellFormed = true ∧ encode i = w := by
  have hx := wordXnn_fields w
  unfold decodeKey at h
  split_ifs at h
  all_goals
    simp only [Decoded.instr.injEq] at h
    subst h
    simp_all [encode, Instr.wellFormed]

theorem encode_of_decodeMisc {w : Word} {i : Instr} (hop : fieldOp w = 0xF) (h : decodeMisc w = .instr i) :
    i.wellFormed = true ∧ encode i = w := by
  have hx := wordXnn_fields w
  unfold decodeMisc at h
  split_ifs at h
  all_goals
    simp only [Decoded.instr.injEq] at h
    subst h
    simp_all [encode, Instr.wellFormed]

end Sys2Proof
end

