-- ==== Sys2Proof/Laws/Memory.lean ====
section
/-! SUPPORT. Memory: a read after a write, blocks of bytes, and that every operation keeps the canonical form. -/

namespace Sys2Proof.Machine

theorem Memory.canonicalFrom_cons (low k : Nat) (b : Byte) (m : Memory) :
    Memory.canonicalFrom low ((k, b) :: m) = true ↔
      low ≤ k ∧ k < 4096 ∧ b ≠ unlistedByte k ∧ Memory.canonicalFrom (k + 1) m = true := by
  simp [Memory.canonicalFrom, and_assoc]

theorem Memory.canonicalFrom_mono {low low' : Nat} (h : low' ≤ low) {m : Memory} (hm : m.canonicalFrom low = true) :
    m.canonicalFrom low' = true := by
  cases m with
  | nil => rfl
  | cons c m =>
    obtain ⟨k, b⟩ := c
    rw [Memory.canonicalFrom_cons] at hm ⊢
    exact ⟨h.trans hm.1, hm.2⟩

theorem Memory.lookup_list (m : Memory) (a : Nat) (v : Byte) (c : Nat) :
    (m.list a v).lookup c = if a = c then some v else m.lookup c := by
  induction m with
  | nil => simp [Memory.list, Memory.lookup]
  | cons e m ih =>
    obtain ⟨k, b⟩ := e
    simp only [Memory.list]
    split_ifs with h1 h2 <;> simp only [Memory.lookup, ih] <;> grind

theorem Memory.lookup_unlist (m : Memory) (a c : Nat) :
    (m.unlist a).lookup c = if a = c then none else m.lookup c := by
  induction m with
  | nil => simp [Memory.unlist, Memory.lookup]
  | cons e m ih =>
    obtain ⟨k, b⟩ := e
    simp only [Memory.unlist]
    split_ifs with h1 <;> simp only [Memory.lookup, ih] <;> grind

theorem Memory.list_canonicalFrom {low a : Nat} {v : Byte} {m : Memory} (hm : m.canonicalFrom low = true) (hl : low ≤ a)
    (ha : a < 4096) (hv : v ≠ unlistedByte a) : (m.list a v).canonicalFrom low = true := by
  induction m generalizing low with
  | nil => rw [Memory.list, Memory.canonicalFrom_cons]; exact ⟨hl, ha, hv, rfl⟩
  | cons e m ih =>
    obtain ⟨k, b⟩ := e
    rw [Memory.canonicalFrom_cons] at hm
    simp only [Memory.list]
    split_ifs with h1 h2
    · rw [Memory.canonicalFrom_cons, Memory.canonicalFrom_cons]; exact ⟨hl, ha, hv, by omega, hm.2⟩
    · subst h2; rw [Memory.canonicalFrom_cons]; exact ⟨hl, ha, hv, hm.2.2.2⟩
    · rw [Memory.canonicalFrom_cons]; exact ⟨hm.1, hm.2.1, hm.2.2.1, ih hm.2.2.2 (by omega)⟩

theorem Memory.unlist_canonicalFrom {low : Nat} {m : Memory} (hm : m.canonicalFrom low = true) (a : Nat) :
    (m.unlist a).canonicalFrom low = true := by
  induction m generalizing low with
  | nil => rfl
  | cons e m ih =>
    obtain ⟨k, b⟩ := e
    rw [Memory.canonicalFrom_cons] at hm
    simp only [Memory.unlist]
    split_ifs with h1
    · exact Memory.canonicalFrom_mono (by omega) (ih hm.2.2.2)
    · rw [Memory.canonicalFrom_cons]; exact ⟨hm.1, hm.2.1, hm.2.2.1, ih hm.2.2.2⟩

/-- A byte written is the byte read, and no other byte changes (R56); in any memory, canonical or not. -/
theorem Memory.readByte_writeByte (m : Memory) (a c : Addr) (v : Byte) :
    (m.writeByte a v).readByte c = if c = a then v else m.readByte c := by
  have hac : a.toNat = c.toNat ↔ c = a := by rw [BitVec.toNat_inj, eq_comm]
  unfold Memory.writeByte Memory.readByte
  split_ifs with hv hc hc
  · subst hc; simp [Memory.lookup_unlist, hv]
  · rw [Memory.lookup_unlist, if_neg (fun h => hc (hac.1 h))]
  · rw [Memory.lookup_list, if_pos (hac.2 hc)]; rfl
  · rw [Memory.lookup_list, if_neg (fun h => hc (hac.1 h))]

/-- Bytes written from `base` on, in a range that ends inside memory: the `j`-th byte stands at `base + j`, and every address outside
the range reads as before (R53, R55). -/
theorem Memory.readByte_writeBytes (m : Memory) (base : Nat) (bs : List Byte) (h : base + bs.length ≤ 4096) (c : Addr) :
    (m.writeBytes base bs).readByte c =
      if base ≤ c.toNat ∧ c.toNat < base + bs.length then bs.getD (c.toNat - base) 0 else m.readByte c := by
  induction bs generalizing m base with
  | nil => simp [Memory.writeBytes]
  | cons b bs ih =>
    simp only [List.length_cons] at h ⊢
    rw [Memory.writeBytes, ih _ _ (by omega), Memory.readByte_writeByte]
    have hb : c = BitVec.ofNat 12 base ↔ c.toNat = base := by
      rw [← BitVec.toNat_inj, BitVec.toNat_ofNat, Nat.mod_eq_of_lt (by omega)]
    by_cases h1 : c.toNat = base
    · have : ¬ (base + 1 ≤ c.toNat ∧ c.toNat < base + 1 + bs.length) := by omega
      rw [if_neg this, if_pos (hb.2 h1), if_pos (by omega), h1]; simp
    · by_cases h2 : base + 1 ≤ c.toNat ∧ c.toNat < base + 1 + bs.length
      · have h3 : c.toNat - base = c.toNat - (base + 1) + 1 := by omega
        rw [if_pos h2, if_pos (by omega), h3, List.getD_cons_succ]
      · rw [if_neg h2, if_neg (fun e => h1 (hb.1 e)), if_neg (by omega)]

/-- The block of bytes read from `base` on (R53). -/
@[simp] theorem Memory.length_readBytes (m : Memory) (base count : Nat) : (m.readBytes base count).length = count := by
  simp [Memory.readBytes]

theorem Memory.getElem_readBytes (m : Memory) (base count j : Nat) (h : j < (m.readBytes base count).length) :
    (m.readBytes base count)[j] = m.readByte (BitVec.ofNat 12 (base + j)) := by
  simp [Memory.readBytes]

/-- Writing a byte keeps the canonical form. -/
theorem Memory.writeByte_wf {m : Memory} (hm : m.wf = true) (a : Addr) (v : Byte) : (m.writeByte a v).wf = true := by
  unfold Memory.writeByte
  split_ifs with hv
  · exact Memory.unlist_canonicalFrom hm _
  · exact Memory.list_canonicalFrom hm (Nat.zero_le _) a.isLt hv

/-- Writing bytes keeps the canonical form. -/
theorem Memory.writeBytes_wf {m : Memory} (hm : m.wf = true) (base : Nat) (bs : List Byte) : (m.writeBytes base bs).wf = true := by
  induction bs generalizing m base with
  | nil => exact hm
  | cons b bs ih => exact ih (Memory.writeByte_wf hm _ b) (base + 1)

end Sys2Proof.Machine
end

