-- ==== Sys2Proof/Laws/State.lean ====
section
/-! SUPPORT. For each update of the state, one lemma per field: what the field holds after it. -/

namespace Sys2Proof.Machine

variable (s : State)

@[simp] theorem State.setV_i (r : RegIdx) (b : Byte) : (s.setV r b).i = s.i := rfl
@[simp] theorem State.setV_pc (r : RegIdx) (b : Byte) : (s.setV r b).pc = s.pc := rfl
@[simp] theorem State.setV_stack (r : RegIdx) (b : Byte) : (s.setV r b).stack = s.stack := rfl
@[simp] theorem State.setV_sp (r : RegIdx) (b : Byte) : (s.setV r b).sp = s.sp := rfl
@[simp] theorem State.setV_status (r : RegIdx) (b : Byte) : (s.setV r b).status = s.status := rfl
@[simp] theorem State.setV_keyEdge (r : RegIdx) (b : Byte) : (s.setV r b).keyEdge = s.keyEdge := rfl
@[simp] theorem State.setV_dt (r : RegIdx) (b : Byte) : (s.setV r b).dt = s.dt := rfl
@[simp] theorem State.setV_st (r : RegIdx) (b : Byte) : (s.setV r b).st = s.st := rfl
@[simp] theorem State.setV_fb (r : RegIdx) (b : Byte) : (s.setV r b).fb = s.fb := rfl
@[simp] theorem State.setV_keyHeld (r : RegIdx) (b : Byte) : (s.setV r b).keyHeld = s.keyHeld := rfl
@[simp] theorem State.setV_mem (r : RegIdx) (b : Byte) : (s.setV r b).mem = s.mem := rfl
@[simp] theorem State.setV_output (r : RegIdx) (b : Byte) : (s.setV r b).output = s.output := rfl
@[simp] theorem State.setV_randomDraws (r : RegIdx) (b : Byte) : (s.setV r b).randomDraws = s.randomDraws := rfl
@[simp] theorem State.setV_keyDraws (r : RegIdx) (b : Byte) : (s.setV r b).keyDraws = s.keyDraws := rfl
@[simp] theorem State.setV_schedule (r : RegIdx) (b : Byte) : (s.setV r b).schedule = s.schedule := rfl

@[simp] theorem State.setPc_v (a : Word) : (s.setPc a).v = s.v := rfl
@[simp] theorem State.setPc_i (a : Word) : (s.setPc a).i = s.i := rfl
@[simp] theorem State.setPc_pc (a : Word) : (s.setPc a).pc = a := rfl
@[simp] theorem State.setPc_stack (a : Word) : (s.setPc a).stack = s.stack := rfl
@[simp] theorem State.setPc_sp (a : Word) : (s.setPc a).sp = s.sp := rfl
@[simp] theorem State.setPc_status (a : Word) : (s.setPc a).status = s.status := rfl
@[simp] theorem State.setPc_keyEdge (a : Word) : (s.setPc a).keyEdge = s.keyEdge := rfl
@[simp] theorem State.setPc_dt (a : Word) : (s.setPc a).dt = s.dt := rfl
@[simp] theorem State.setPc_st (a : Word) : (s.setPc a).st = s.st := rfl
@[simp] theorem State.setPc_fb (a : Word) : (s.setPc a).fb = s.fb := rfl
@[simp] theorem State.setPc_keyHeld (a : Word) : (s.setPc a).keyHeld = s.keyHeld := rfl
@[simp] theorem State.setPc_mem (a : Word) : (s.setPc a).mem = s.mem := rfl
@[simp] theorem State.setPc_output (a : Word) : (s.setPc a).output = s.output := rfl
@[simp] theorem State.setPc_randomDraws (a : Word) : (s.setPc a).randomDraws = s.randomDraws := rfl
@[simp] theorem State.setPc_keyDraws (a : Word) : (s.setPc a).keyDraws = s.keyDraws := rfl
@[simp] theorem State.setPc_schedule (a : Word) : (s.setPc a).schedule = s.schedule := rfl

@[simp] theorem State.setI_v (a : Word) : (s.setI a).v = s.v := rfl
@[simp] theorem State.setI_i (a : Word) : (s.setI a).i = a := rfl
@[simp] theorem State.setI_pc (a : Word) : (s.setI a).pc = s.pc := rfl
@[simp] theorem State.setI_stack (a : Word) : (s.setI a).stack = s.stack := rfl
@[simp] theorem State.setI_sp (a : Word) : (s.setI a).sp = s.sp := rfl
@[simp] theorem State.setI_status (a : Word) : (s.setI a).status = s.status := rfl
@[simp] theorem State.setI_keyEdge (a : Word) : (s.setI a).keyEdge = s.keyEdge := rfl
@[simp] theorem State.setI_dt (a : Word) : (s.setI a).dt = s.dt := rfl
@[simp] theorem State.setI_st (a : Word) : (s.setI a).st = s.st := rfl
@[simp] theorem State.setI_fb (a : Word) : (s.setI a).fb = s.fb := rfl
@[simp] theorem State.setI_keyHeld (a : Word) : (s.setI a).keyHeld = s.keyHeld := rfl
@[simp] theorem State.setI_mem (a : Word) : (s.setI a).mem = s.mem := rfl
@[simp] theorem State.setI_output (a : Word) : (s.setI a).output = s.output := rfl
@[simp] theorem State.setI_randomDraws (a : Word) : (s.setI a).randomDraws = s.randomDraws := rfl
@[simp] theorem State.setI_keyDraws (a : Word) : (s.setI a).keyDraws = s.keyDraws := rfl
@[simp] theorem State.setI_schedule (a : Word) : (s.setI a).schedule = s.schedule := rfl

@[simp] theorem State.raise_v (f : FatalCondition) (info : Word) : (s.raise f info).v = s.v := rfl
@[simp] theorem State.raise_i (f : FatalCondition) (info : Word) : (s.raise f info).i = s.i := rfl
@[simp] theorem State.raise_pc (f : FatalCondition) (info : Word) : (s.raise f info).pc = s.pc := rfl
@[simp] theorem State.raise_stack (f : FatalCondition) (info : Word) : (s.raise f info).stack = s.stack := rfl
@[simp] theorem State.raise_sp (f : FatalCondition) (info : Word) : (s.raise f info).sp = s.sp := rfl
@[simp] theorem State.raise_status (f : FatalCondition) (info : Word) : (s.raise f info).status = .halted f info := rfl
@[simp] theorem State.raise_keyEdge (f : FatalCondition) (info : Word) : (s.raise f info).keyEdge = s.keyEdge := rfl
@[simp] theorem State.raise_dt (f : FatalCondition) (info : Word) : (s.raise f info).dt = s.dt := rfl
@[simp] theorem State.raise_st (f : FatalCondition) (info : Word) : (s.raise f info).st = s.st := rfl
@[simp] theorem State.raise_fb (f : FatalCondition) (info : Word) : (s.raise f info).fb = s.fb := rfl
@[simp] theorem State.raise_keyHeld (f : FatalCondition) (info : Word) : (s.raise f info).keyHeld = s.keyHeld := rfl
@[simp] theorem State.raise_mem (f : FatalCondition) (info : Word) : (s.raise f info).mem = s.mem := rfl
@[simp] theorem State.raise_output (f : FatalCondition) (info : Word) : (s.raise f info).output = s.output := rfl
@[simp] theorem State.raise_randomDraws (f : FatalCondition) (info : Word) : (s.raise f info).randomDraws = s.randomDraws := rfl
@[simp] theorem State.raise_keyDraws (f : FatalCondition) (info : Word) : (s.raise f info).keyDraws = s.keyDraws := rfl
@[simp] theorem State.raise_schedule (f : FatalCondition) (info : Word) : (s.raise f info).schedule = s.schedule := rfl

@[simp] theorem State.emit_v (r : Report) : (s.emit r).v = s.v := rfl
@[simp] theorem State.emit_i (r : Report) : (s.emit r).i = s.i := rfl
@[simp] theorem State.emit_pc (r : Report) : (s.emit r).pc = s.pc := rfl
@[simp] theorem State.emit_stack (r : Report) : (s.emit r).stack = s.stack := rfl
@[simp] theorem State.emit_sp (r : Report) : (s.emit r).sp = s.sp := rfl
@[simp] theorem State.emit_status (r : Report) : (s.emit r).status = s.status := rfl
@[simp] theorem State.emit_keyEdge (r : Report) : (s.emit r).keyEdge = s.keyEdge := rfl
@[simp] theorem State.emit_dt (r : Report) : (s.emit r).dt = s.dt := rfl
@[simp] theorem State.emit_st (r : Report) : (s.emit r).st = s.st := rfl
@[simp] theorem State.emit_fb (r : Report) : (s.emit r).fb = s.fb := rfl
@[simp] theorem State.emit_keyHeld (r : Report) : (s.emit r).keyHeld = s.keyHeld := rfl
@[simp] theorem State.emit_mem (r : Report) : (s.emit r).mem = s.mem := rfl
@[simp] theorem State.emit_output (r : Report) : (s.emit r).output = some (.report r) := rfl
@[simp] theorem State.emit_randomDraws (r : Report) : (s.emit r).randomDraws = s.randomDraws := rfl
@[simp] theorem State.emit_keyDraws (r : Report) : (s.emit r).keyDraws = s.keyDraws := rfl
@[simp] theorem State.emit_schedule (r : Report) : (s.emit r).schedule = s.schedule := rfl

@[simp] theorem State.storeBytes_v (base : Nat) (bs : List Byte) : (s.storeBytes base bs).v = s.v := rfl
@[simp] theorem State.storeBytes_i (base : Nat) (bs : List Byte) : (s.storeBytes base bs).i = s.i := rfl
@[simp] theorem State.storeBytes_pc (base : Nat) (bs : List Byte) : (s.storeBytes base bs).pc = s.pc := rfl
@[simp] theorem State.storeBytes_stack (base : Nat) (bs : List Byte) : (s.storeBytes base bs).stack = s.stack := rfl
@[simp] theorem State.storeBytes_sp (base : Nat) (bs : List Byte) : (s.storeBytes base bs).sp = s.sp := rfl
@[simp] theorem State.storeBytes_status (base : Nat) (bs : List Byte) : (s.storeBytes base bs).status = s.status := rfl
@[simp] theorem State.storeBytes_keyEdge (base : Nat) (bs : List Byte) : (s.storeBytes base bs).keyEdge = s.keyEdge := rfl
@[simp] theorem State.storeBytes_dt (base : Nat) (bs : List Byte) : (s.storeBytes base bs).dt = s.dt := rfl
@[simp] theorem State.storeBytes_st (base : Nat) (bs : List Byte) : (s.storeBytes base bs).st = s.st := rfl
@[simp] theorem State.storeBytes_fb (base : Nat) (bs : List Byte) : (s.storeBytes base bs).fb = s.fb := rfl
@[simp] theorem State.storeBytes_keyHeld (base : Nat) (bs : List Byte) : (s.storeBytes base bs).keyHeld = s.keyHeld := rfl
@[simp] theorem State.storeBytes_mem (base : Nat) (bs : List Byte) : (s.storeBytes base bs).mem = s.mem.writeBytes base bs := rfl
@[simp] theorem State.storeBytes_output (base : Nat) (bs : List Byte) : (s.storeBytes base bs).output = s.output := rfl
@[simp] theorem State.storeBytes_randomDraws (base : Nat) (bs : List Byte) : (s.storeBytes base bs).randomDraws = s.randomDraws := rfl
@[simp] theorem State.storeBytes_keyDraws (base : Nat) (bs : List Byte) : (s.storeBytes base bs).keyDraws = s.keyDraws := rfl
@[simp] theorem State.storeBytes_schedule (base : Nat) (bs : List Byte) : (s.storeBytes base bs).schedule = s.schedule := rfl

@[simp] theorem State.advancePc_v : s.advancePc.v = s.v := rfl
@[simp] theorem State.advancePc_i : s.advancePc.i = s.i := rfl
@[simp] theorem State.advancePc_pc : s.advancePc.pc = s.pc + 2 := rfl
@[simp] theorem State.advancePc_stack : s.advancePc.stack = s.stack := rfl
@[simp] theorem State.advancePc_sp : s.advancePc.sp = s.sp := rfl
@[simp] theorem State.advancePc_status : s.advancePc.status = s.status := rfl
@[simp] theorem State.advancePc_keyEdge : s.advancePc.keyEdge = s.keyEdge := rfl
@[simp] theorem State.advancePc_dt : s.advancePc.dt = s.dt := rfl
@[simp] theorem State.advancePc_st : s.advancePc.st = s.st := rfl
@[simp] theorem State.advancePc_fb : s.advancePc.fb = s.fb := rfl
@[simp] theorem State.advancePc_keyHeld : s.advancePc.keyHeld = s.keyHeld := rfl
@[simp] theorem State.advancePc_mem : s.advancePc.mem = s.mem := rfl
@[simp] theorem State.advancePc_output : s.advancePc.output = s.output := rfl
@[simp] theorem State.advancePc_randomDraws : s.advancePc.randomDraws = s.randomDraws := rfl
@[simp] theorem State.advancePc_keyDraws : s.advancePc.keyDraws = s.keyDraws := rfl
@[simp] theorem State.advancePc_schedule : s.advancePc.schedule = s.schedule := rfl

@[simp] theorem State.push_v (h : s.sp.val < 16) : (s.push h).v = s.v := rfl
@[simp] theorem State.push_i (h : s.sp.val < 16) : (s.push h).i = s.i := rfl
@[simp] theorem State.push_pc (h : s.sp.val < 16) : (s.push h).pc = s.pc := rfl
@[simp] theorem State.push_stack (h : s.sp.val < 16) : (s.push h).stack = s.stack.set s.sp.val s.pc h := rfl
@[simp] theorem State.push_status (h : s.sp.val < 16) : (s.push h).status = s.status := rfl
@[simp] theorem State.push_keyEdge (h : s.sp.val < 16) : (s.push h).keyEdge = s.keyEdge := rfl
@[simp] theorem State.push_dt (h : s.sp.val < 16) : (s.push h).dt = s.dt := rfl
@[simp] theorem State.push_st (h : s.sp.val < 16) : (s.push h).st = s.st := rfl
@[simp] theorem State.push_fb (h : s.sp.val < 16) : (s.push h).fb = s.fb := rfl
@[simp] theorem State.push_keyHeld (h : s.sp.val < 16) : (s.push h).keyHeld = s.keyHeld := rfl
@[simp] theorem State.push_mem (h : s.sp.val < 16) : (s.push h).mem = s.mem := rfl
@[simp] theorem State.push_output (h : s.sp.val < 16) : (s.push h).output = s.output := rfl
@[simp] theorem State.push_randomDraws (h : s.sp.val < 16) : (s.push h).randomDraws = s.randomDraws := rfl
@[simp] theorem State.push_keyDraws (h : s.sp.val < 16) : (s.push h).keyDraws = s.keyDraws := rfl
@[simp] theorem State.push_schedule (h : s.sp.val < 16) : (s.push h).schedule = s.schedule := rfl

@[simp] theorem State.pop_v : s.pop.v = s.v := rfl
@[simp] theorem State.pop_i : s.pop.i = s.i := rfl
@[simp] theorem State.pop_stack : s.pop.stack = s.stack := rfl
@[simp] theorem State.pop_status : s.pop.status = s.status := rfl
@[simp] theorem State.pop_keyEdge : s.pop.keyEdge = s.keyEdge := rfl
@[simp] theorem State.pop_dt : s.pop.dt = s.dt := rfl
@[simp] theorem State.pop_st : s.pop.st = s.st := rfl
@[simp] theorem State.pop_fb : s.pop.fb = s.fb := rfl
@[simp] theorem State.pop_keyHeld : s.pop.keyHeld = s.keyHeld := rfl
@[simp] theorem State.pop_mem : s.pop.mem = s.mem := rfl
@[simp] theorem State.pop_output : s.pop.output = s.output := rfl
@[simp] theorem State.pop_randomDraws : s.pop.randomDraws = s.randomDraws := rfl
@[simp] theorem State.pop_keyDraws : s.pop.keyDraws = s.keyDraws := rfl
@[simp] theorem State.pop_schedule : s.pop.schedule = s.schedule := rfl

@[simp] theorem State.beginTransaction_v : s.beginTransaction.v = s.v := rfl
@[simp] theorem State.beginTransaction_i : s.beginTransaction.i = s.i := rfl
@[simp] theorem State.beginTransaction_pc : s.beginTransaction.pc = s.pc := rfl
@[simp] theorem State.beginTransaction_stack : s.beginTransaction.stack = s.stack := rfl
@[simp] theorem State.beginTransaction_sp : s.beginTransaction.sp = s.sp := rfl
@[simp] theorem State.beginTransaction_status : s.beginTransaction.status = s.status := rfl
@[simp] theorem State.beginTransaction_keyEdge : s.beginTransaction.keyEdge = s.keyEdge := rfl
@[simp] theorem State.beginTransaction_dt : s.beginTransaction.dt = s.dt := rfl
@[simp] theorem State.beginTransaction_st : s.beginTransaction.st = s.st := rfl
@[simp] theorem State.beginTransaction_fb : s.beginTransaction.fb = s.fb := rfl
@[simp] theorem State.beginTransaction_keyHeld : s.beginTransaction.keyHeld = s.keyHeld := rfl
@[simp] theorem State.beginTransaction_mem : s.beginTransaction.mem = s.mem := rfl
@[simp] theorem State.beginTransaction_output : s.beginTransaction.output = none := rfl
@[simp] theorem State.beginTransaction_randomDraws : s.beginTransaction.randomDraws = s.randomDraws := rfl
@[simp] theorem State.beginTransaction_keyDraws : s.beginTransaction.keyDraws = s.keyDraws := rfl
@[simp] theorem State.beginTransaction_schedule : s.beginTransaction.schedule = s.schedule.tail := rfl

theorem State.push_sp (h : s.sp.val < 16) : (s.push h).sp.val = s.sp.val + 1 := rfl
theorem State.pop_sp : s.pop.sp.val = s.sp.val - 1 := rfl

end Sys2Proof.Machine
end

