-- ==== Sys2Proof/Laws/Registers.lean ====
section
/-! SUPPORT. The register file: what a register reads after each shared operation. -/

namespace Sys2Proof.Machine

@[simp] theorem State.getV_setV (s : State) (r q : RegIdx) (b : Byte) :
    (s.setV r b).getV q = if q = r then b else s.getV q := by
  simp [State.setV, State.getV, Vector.getElem_set, eq_comm, ← BitVec.toNat_inj]

theorem State.getV_congr {s t : State} (h : t.v = s.v) (r : RegIdx) : t.getV r = s.getV r := by
  simp [State.getV, h]

@[simp] theorem State.getV_setPc (s : State) (a : Word) (r : RegIdx) : (s.setPc a).getV r = s.getV r := rfl
@[simp] theorem State.getV_setI (s : State) (a : Word) (r : RegIdx) : (s.setI a).getV r = s.getV r := rfl
@[simp] theorem State.getV_raise (s : State) (f : FatalCondition) (info : Word) (r : RegIdx) :
    (s.raise f info).getV r = s.getV r := rfl
@[simp] theorem State.getV_emit (s : State) (m : Report) (r : RegIdx) : (s.emit m).getV r = s.getV r := rfl
@[simp] theorem State.getV_storeBytes (s : State) (base : Nat) (bs : List Byte) (r : RegIdx) :
    (s.storeBytes base bs).getV r = s.getV r := rfl
@[simp] theorem State.getV_advancePc (s : State) (r : RegIdx) : s.advancePc.getV r = s.getV r := rfl

/-- After loading `count` registers, those below `count` hold the bytes and the others are unchanged. -/
theorem State.getV_loadRegisters (s : State) (base count : Nat) (hc : count ≤ 16) (r : RegIdx) :
    (s.loadRegisters base count).getV r =
      if r.toNat < count then s.mem.readByte (BitVec.ofNat 12 (base + r.toNat)) else s.getV r := by
  induction count with
  | zero => simp [State.loadRegisters]
  | succ k ih =>
    have hk : (BitVec.ofNat 4 k).toNat = k := by simp; omega
    have hr : r = BitVec.ofNat 4 k ↔ r.toNat = k := by rw [← BitVec.toNat_inj, hk]
    rw [State.loadRegisters, State.getV_setV, ih (by omega)]
    by_cases h : r.toNat = k
    · simp [hr, h]
    · have : r.toNat < k + 1 ↔ r.toNat < k := by omega
      simp [hr, h, this]

/-- Loading registers writes registers only. -/
theorem State.loadRegisters_eq (s : State) (base count : Nat) :
    s.loadRegisters base count = { s with v := (s.loadRegisters base count).v } := by
  induction count with
  | zero => rfl
  | succ k ih => rw [State.loadRegisters, ih]; rfl

@[simp] theorem State.loadRegisters_mem (s : State) (base count : Nat) : (s.loadRegisters base count).mem = s.mem := by
  rw [State.loadRegisters_eq]
@[simp] theorem State.loadRegisters_pc (s : State) (base count : Nat) : (s.loadRegisters base count).pc = s.pc := by
  rw [State.loadRegisters_eq]
@[simp] theorem State.loadRegisters_stack (s : State) (base count : Nat) : (s.loadRegisters base count).stack = s.stack := by
  rw [State.loadRegisters_eq]
@[simp] theorem State.loadRegisters_status (s : State) (base count : Nat) : (s.loadRegisters base count).status = s.status := by
  rw [State.loadRegisters_eq]

/-- The flag and the result of `8xy4` to `8xyE`: the result remains in `V[x]`, and `VF` holds the flag unless `x` = 0xF (R132). -/
theorem State.getV_writeFlagThenResult (s : State) (x : RegIdx) (flag result : Byte) (r : RegIdx) :
    (s.writeFlagThenResult x flag result).getV r = if r = x then result else if r = vF then flag else s.getV r := by
  simp [State.writeFlagThenResult]

/-- The result of `8xy1` to `8xy3` (R132, R133): with the clear, `VF` ends 0 whatever `x` is. -/
theorem State.getV_writeLogicResult (s : State) (clear : Bool) (x : RegIdx) (result : Byte) (r : RegIdx) :
    (s.writeLogicResult clear x result).getV r =
      if r = vF ∧ clear = true then 0 else if r = x then result else s.getV r := by
  cases clear <;> simp [State.writeLogicResult]

theorem State.writeFlagThenResult_eq (s : State) (x : RegIdx) (flag result : Byte) :
    s.writeFlagThenResult x flag result = { s with v := (s.writeFlagThenResult x flag result).v } := rfl

theorem State.writeLogicResult_eq (s : State) (clear : Bool) (x : RegIdx) (result : Byte) :
    s.writeLogicResult clear x result = { s with v := (s.writeLogicResult clear x result).v } := by
  cases clear <;> rfl

end Sys2Proof.Machine
end

