-- ==== Sys2Proof/Laws/Ops.lean ====
section
/-! SUPPORT. What the shared operations can do: skips, the range check, the key index, the key choice, the stack. -/

namespace Sys2Proof.Machine

/-- A skip advances `PC` by 2 or does nothing. -/
theorem State.skipIf_eq (s : State) (taken : Bool) : s.skipIf taken = s.setPc (if taken then s.pc + 2 else s.pc) := by
  cases taken <;> rfl

/-- The range check of R55, for at least one byte: no address of the range exceeds 0xFFF. -/
theorem rangeFits_iff (base : Word) (count : Nat) : rangeFits base count = true ↔ base.toNat + count - 1 ≤ 0xFFF := by
  simp [rangeFits]

/-- A guarded instruction does its body if the range fits (R55). -/
theorem State.guardRange_fits (s : State) (count : Nat) (body : State) (h : s.i.toNat + count - 1 ≤ 0xFFF) :
    s.guardRange count body = body := by
  rw [State.guardRange, if_pos ((rangeFits_iff _ _).2 h)]

/-- A guarded instruction halts with `MemoryOutOfBounds(I)`, and does nothing else, if the range does not fit (R55). -/
theorem State.guardRange_past (s : State) (count : Nat) (body : State) (h : 0xFFF < s.i.toNat + count - 1) :
    s.guardRange count body = s.raise .memoryOutOfBounds s.i := by
  rw [State.guardRange, if_neg]
  rw [rangeFits_iff]
  omega

/-- `V[x]` names a key iff it is at most 15 (R170). -/
theorem State.keyNamed_of_val (s : State) (x : RegIdx) (k : Key) (h : k.val = (s.getV x).toNat) : s.keyNamed x = some k := by
  have hk : (s.getV x).toNat < 16 := h ▸ k.isLt
  rw [State.keyNamed, dif_pos hk]
  exact congrArg some (Fin.ext h.symm)

theorem State.keyNamed_none (s : State) (x : RegIdx) (h : 15 < (s.getV x).toNat) : s.keyNamed x = none := by
  rw [State.keyNamed, dif_neg (by omega)]

theorem toNat_zextByte (b : Byte) : (zextByte b).toNat = b.toNat := by
  simp only [zextByte, BitVec.toNat_setWidth]
  omega

theorem toNat_zextAddr (a : Addr) : (zextAddr a).toNat = a.toNat := by
  simp only [zextAddr, BitVec.toNat_setWidth]
  omega

theorem mem_pressedKeys (edge : Vector Bool 16) (k : Key) : k ∈ pressedKeys edge ↔ edge[k.val] = true := by
  simp [pressedKeys]

theorem pressedKeys_eq_nil (edge : Vector Bool 16) : pressedKeys edge = [] ↔ ∀ k : Key, edge[k.val] = false := by
  simp [pressedKeys, List.filter_eq_nil_iff]

/-- Whatever the draw, the key selected is one of the latched ones (R204). -/
theorem selectKey_mem (edge : Vector Bool 16) (draw : Nat) (h : pressedKeys edge ≠ []) :
    selectKey edge draw ∈ pressedKeys edge := by
  have hpos : 0 < (pressedKeys edge).length := List.length_pos_of_ne_nil h
  have hlt : draw % (pressedKeys edge).length < (pressedKeys edge).length := Nat.mod_lt _ hpos
  rw [selectKey, List.getD_eq_getElem _ _ hlt]
  exact List.getElem_mem hlt

@[simp] theorem length_registersUpTo (s : State) (x : RegIdx) : (s.registersUpTo x).length = x.toNat + 1 := by
  simp [State.registersUpTo]

/-- The byte stored `j` places after `I` by `Fx55` is `V[j]` (R186). -/
theorem getD_registersUpTo (s : State) (x : RegIdx) (j : Nat) (h : j ≤ x.toNat) (d : Byte) :
    (s.registersUpTo x).getD j d = s.getV (BitVec.ofNat 4 j) := by
  rw [List.getD_eq_getElem _ _ (by simp; omega)]
  simp [State.registersUpTo]

/-- The entry a push writes is the one at `SP` (R103). -/
theorem State.getElem_push_stack (s : State) (h : s.sp.val < 16) (j : Fin 16) :
    ((s.push h).stack)[j.val] = if j.val = s.sp.val then s.pc else s.stack[j.val] := by
  rw [State.push_stack, Vector.getElem_set]
  simp only [eq_comm]

end Sys2Proof.Machine
end

