-- ==== Sys2Proof/Laws/Framebuffer.lean ====
section
/-! SUPPORT. The framebuffer: a cell after a write, and the blank one. -/

namespace Sys2Proof.Machine

@[simp] theorem Framebuffer.pixel_blank (px : Fin 64) (py : Fin 32) : Framebuffer.blank.pixel px py = false := by
  simp [Framebuffer.pixel, Framebuffer.blank]

theorem Framebuffer.pixel_setPixel (fb : Framebuffer) (px qx : Fin 64) (py qy : Fin 32) (b : Bool) :
    (fb.setPixel px py b).pixel qx qy = if qx = px ∧ qy = py then b else fb.pixel qx qy := by
  simp only [Framebuffer.pixel, Framebuffer.setPixel, Vector.getElem_set, Fin.ext_iff]
  by_cases hx : px.val = qx.val
  · simp only [hx, if_true, Vector.getElem_set, true_and]
    by_cases hy : py.val = qy.val
    · simp [hy]
    · simp [hy, eq_comm]
  · simp [hx, eq_comm]

end Sys2Proof.Machine
end

