-- ==== Sys2Proof/Laws/Sprite.lean ====
section
/-! SUPPORT. The blitter (43_sprite_draw.md R161): a draw flips the cells under set sprite bits, each once, and sees a collision exactly
when one of them was lit. -/

namespace Sys2Proof.Machine

/-- The cells under the set bits of one row byte. -/
def rowCells (x0 y : Nat) (b : Byte) : List (Fin 64 × Fin 32) :=
  ((List.range 8).filter fun col => b.getLsbD (7 - col)).map fun col => (Fin.ofNat 64 (x0 + col), Fin.ofNat 32 y)

/-- The cells under the set bits of a sprite, row by row. -/
def spriteCells (x0 : Nat) : Nat → List Byte → List (Fin 64 × Fin 32)
  | _, [] => []
  | y, b :: bs => rowCells x0 y b ++ spriteCells x0 (y + 1) bs

theorem drawRow_eq_foldl (x0 y : Nat) (b : Byte) (d : Drawing) :
    drawRow x0 y b d = (rowCells x0 y b).foldl (fun d c => d.flip c.1 c.2) d := by
  simp [drawRow, rowCells, List.foldl_map, List.foldl_filter]

theorem drawRows_eq_foldl (x0 y : Nat) (bs : List Byte) (d : Drawing) :
    drawRows x0 y bs d = (spriteCells x0 y bs).foldl (fun d c => d.flip c.1 c.2) d := by
  induction bs generalizing y d with
  | nil => rfl
  | cons b bs ih => simp [drawRows, spriteCells, drawRow_eq_foldl, ih]

theorem mem_rowCells (x0 y : Nat) (b : Byte) (px : Fin 64) (py : Fin 32) :
    (px, py) ∈ rowCells x0 y b ↔
      ∃ col, col < 8 ∧ b.getLsbD (7 - col) = true ∧ px.val = (x0 + col) % 64 ∧ py.val = y % 32 := by
  simp only [rowCells, List.mem_map, List.mem_filter, List.mem_range, Prod.mk.injEq, Fin.ext_iff, Fin.val_ofNat, and_assoc]
  constructor <;> rintro ⟨c, h1, h2, h3, h4⟩ <;> exact ⟨c, h1, h2, h3.symm, h4.symm⟩

/-- A cell is under a set bit of the sprite iff some row and column put it there. -/
theorem mem_spriteCells (x0 y : Nat) (bs : List Byte) (px : Fin 64) (py : Fin 32) :
    (px, py) ∈ spriteCells x0 y bs ↔
      ∃ row col, ∃ h : row < bs.length, col < 8 ∧ (bs[row]).getLsbD (7 - col) = true ∧ px.val = (x0 + col) % 64 ∧
        py.val = (y + row) % 32 := by
  induction bs generalizing y with
  | nil => simp [spriteCells]
  | cons b bs ih =>
    rw [spriteCells, List.mem_append, mem_rowCells, ih]
    constructor
    · rintro (⟨col, h1, h2, h3, h4⟩ | ⟨row, col, h, h1, h2, h3, h4⟩)
      · exact ⟨0, col, by simp, h1, h2, h3, h4⟩
      · exact ⟨row + 1, col, by simpa using h, h1, by simpa using h2, h3, by rw [h4]; congr 1; omega⟩
    · rintro ⟨row, col, h, h1, h2, h3, h4⟩
      cases row with
      | zero => exact .inl ⟨col, h1, h2, h3, h4⟩
      | succ row => exact .inr ⟨row, col, by simpa using h, h1, by simpa using h2, h3, by rw [h4]; congr 1; omega⟩

theorem rowCells_nodup (x0 y : Nat) (b : Byte) : (rowCells x0 y b).Nodup := by
  refine List.Nodup.map_on ?_ (List.Nodup.filter _ List.nodup_range)
  intro c hc d hd h
  simp only [List.mem_filter, List.mem_range] at hc hd
  simp only [Prod.mk.injEq, Fin.ext_iff, Fin.val_ofNat] at h
  omega

/-- A sprite of at most 32 rows covers no cell twice: its width 8 is below 64 (R161). -/
theorem spriteCells_nodup (x0 y : Nat) (bs : List Byte) (h : bs.length ≤ 32) : (spriteCells x0 y bs).Nodup := by
  induction bs generalizing y with
  | nil => exact List.nodup_nil
  | cons b bs ih =>
    simp only [List.length_cons] at h
    rw [spriteCells, List.nodup_append]
    refine ⟨rowCells_nodup _ _ _, ih _ (by omega), ?_⟩
    rintro ⟨px, py⟩ h1 ⟨qx, qy⟩ h2 heq
    obtain ⟨rfl, rfl⟩ := Prod.mk.injEq .. ▸ heq
    obtain ⟨_, _, _, _, e1⟩ := (mem_rowCells ..).1 h1
    obtain ⟨row, _, hr, _, _, _, e2⟩ := (mem_spriteCells ..).1 h2
    omega

/-- Flipping a list of distinct cells: each is XORed once, the others are unchanged, and a collision is seen iff one was lit. -/
theorem foldl_flip (cells : List (Fin 64 × Fin 32)) (hn : cells.Nodup) (d : Drawing) (px : Fin 64) (py : Fin 32) :
    (cells.foldl (fun d c => d.flip c.1 c.2) d).fb.pixel px py =
        (if (px, py) ∈ cells then !d.fb.pixel px py else d.fb.pixel px py) ∧
      ((cells.foldl (fun d c => d.flip c.1 c.2) d).collision = true ↔
        d.collision = true ∨ ∃ c ∈ cells, d.fb.pixel c.1 c.2 = true) := by
  induction cells generalizing d with
  | nil => simp
  | cons c cells ih =>
    obtain ⟨hc, hn⟩ := List.nodup_cons.1 hn
    obtain ⟨h1, h2⟩ := ih hn (d.flip c.1 c.2)
    have other : ∀ q ∈ cells, (d.flip c.1 c.2).fb.pixel q.1 q.2 = d.fb.pixel q.1 q.2 := by
      intro q hq
      rw [Drawing.flip, Framebuffer.pixel_setPixel, if_neg]
      rintro ⟨e1, e2⟩
      exact hc (Prod.ext e1 e2 ▸ hq)
    refine ⟨?_, ?_⟩
    · rw [List.foldl_cons, h1]
      by_cases hm : (px, py) ∈ cells
      · simp [hm, other _ hm]
      · by_cases he : (px, py) = c
        · subst he; simp [hm, Drawing.flip, Framebuffer.pixel_setPixel]
        · have : ¬ (px = c.1 ∧ py = c.2) := fun h => he (Prod.ext h.1 h.2)
          simp [hm, he, Drawing.flip, Framebuffer.pixel_setPixel, this]
    · rw [List.foldl_cons, h2]
      have : (∃ q ∈ cells, (d.flip c.1 c.2).fb.pixel q.1 q.2 = true) ↔ ∃ q ∈ cells, d.fb.pixel q.1 q.2 = true := by
        constructor <;> rintro ⟨q, hq, h⟩ <;> exact ⟨q, hq, by simpa [other q hq] using h⟩
      rw [this]
      simp [Drawing.flip, or_assoc]

/-- What the rows of a sprite do to a drawing, cell by cell (R161). -/
theorem drawRows_spec (x0 y : Nat) (bs : List Byte) (h : bs.length ≤ 32) (d : Drawing) (px : Fin 64) (py : Fin 32) :
    (drawRows x0 y bs d).fb.pixel px py =
        (if (px, py) ∈ spriteCells x0 y bs then !d.fb.pixel px py else d.fb.pixel px py) ∧
      ((drawRows x0 y bs d).collision = true ↔
        d.collision = true ∨ ∃ c ∈ spriteCells x0 y bs, d.fb.pixel c.1 c.2 = true) := by
  rw [drawRows_eq_foldl]
  exact foldl_flip _ (spriteCells_nodup x0 y bs h) d px py

/-- A draw writes the framebuffer and `VF` only. -/
theorem State.drawSprite_eq (s : State) (x y : RegIdx) (n : Nat) :
    s.drawSprite x y n = { s with fb := (s.drawSprite x y n).fb, v := (s.drawSprite x y n).v } := rfl

theorem State.getV_drawSprite_other (s : State) (x y : RegIdx) (n : Nat) {r : RegIdx} (h : r ≠ vF) :
    (s.drawSprite x y n).getV r = s.getV r := by
  rw [State.drawSprite, State.getV_setV, if_neg h]
  rfl

end Sys2Proof.Machine
end

