-- ==== Sys2Proof/Laws/Frame.lean ====
section
/-! SUPPORT. The frame of each shared operation: which parts of the state it may change. -/

namespace Sys2Proof.Machine

theorem UnchangedExcept.mono {s t : State} {w w' : Part → Prop} (h : UnchangedExcept s t w) (hw : ∀ p, w p → w' p) :
    UnchangedExcept s t w' := fun p hp => h p fun hwp => hp (hw p hwp)

theorem UnchangedExcept.refl (s : State) (w : Part → Prop) : UnchangedExcept s s w := fun p _ => by cases p <;> rfl

theorem UnchangedExcept.trans {s t u : State} {w : Part → Prop} (h : UnchangedExcept s t w) (h' : UnchangedExcept t u w) :
    UnchangedExcept s u w := fun p hp => by
  have h1 := h p hp
  have h2 := h' p hp
  cases p <;> exact Eq.trans h2 h1

variable (s : State)

/-- An update of registers only, `written` among them, is framed by them. -/
theorem unchanged_of_v (v : Vector Byte 16) (w : RegIdx → Prop)
    (h : ∀ r, ¬ w r → ({ s with v := v } : State).getV r = s.getV r) :
    UnchangedExcept s { s with v := v } (fun p => ∃ r, p = .v r ∧ w r) := fun p hp => by
  cases p with
  | v r => exact h r fun hw => hp ⟨r, rfl, hw⟩
  | _ => rfl

theorem unchanged_setV (r : RegIdx) (b : Byte) : UnchangedExcept s (s.setV r b) (fun p => p = .v r) := fun p hp => by
  cases p with
  | v q => exact (State.getV_setV s r q b).trans (if_neg fun h => hp (congrArg Part.v h))
  | _ => rfl

theorem unchanged_setPc (a : Word) : UnchangedExcept s (s.setPc a) (fun p => p = .pc) := fun p hp => by
  cases p <;> first | rfl | exact absurd rfl hp

theorem unchanged_setI (a : Word) : UnchangedExcept s (s.setI a) (fun p => p = .i) := fun p hp => by
  cases p <;> first | rfl | exact absurd rfl hp

theorem unchanged_raise (f : FatalCondition) (info : Word) : UnchangedExcept s (s.raise f info) (fun p => p = .status) :=
  fun p hp => by cases p <;> first | rfl | exact absurd rfl hp

theorem unchanged_emit (m : Report) : UnchangedExcept s (s.emit m) (fun p => p = .output) := fun p hp => by
  cases p <;> first | rfl | exact absurd rfl hp

theorem unchanged_storeBytes (base : Nat) (bs : List Byte) (h : base + bs.length ≤ 4096) :
    UnchangedExcept s (s.storeBytes base bs)
      (fun p => ∃ a : Addr, p = .byte a ∧ base ≤ a.toNat ∧ a.toNat < base + bs.length) := fun p hp => by
  cases p with
  | byte a => exact (Memory.readByte_writeBytes _ _ _ h _).trans (if_neg fun ha => hp ⟨a, rfl, ha⟩)
  | _ => rfl

theorem unchanged_push (h : s.sp.val < 16) :
    UnchangedExcept s (s.push h) (fun p => p = .sp ∨ ∃ j, p = .stackEntry j ∧ j.val = s.sp.val) := fun p hp => by
  cases p with
  | stackEntry j => exact (State.getElem_push_stack s h j).trans (if_neg fun hj => hp (.inr ⟨j, rfl, hj⟩))
  | sp => exact absurd (.inl rfl) hp
  | _ => rfl

theorem unchanged_pop : UnchangedExcept s s.pop (fun p => p = .pc ∨ p = .sp) := fun p hp => by
  cases p <;> first | rfl | exact absurd (.inl rfl) hp | exact absurd (.inr rfl) hp

theorem unchanged_loadRegisters (base count : Nat) (h : count ≤ 16) :
    UnchangedExcept s (s.loadRegisters base count) (fun p => ∃ r : RegIdx, p = .v r ∧ r.toNat < count) := by
  rw [State.loadRegisters_eq]
  refine unchanged_of_v s _ _ fun r hr => ?_
  rw [← State.loadRegisters_eq, State.getV_loadRegisters s base count h, if_neg hr]

theorem unchanged_drawSprite (x y : RegIdx) (n : Nat) :
    UnchangedExcept s (s.drawSprite x y n) (fun p => p = .v vF ∨ ∃ px py, p = .pixel px py) := fun p hp => by
  cases p with
  | v r => exact State.getV_drawSprite_other s x y n fun h => hp (.inl (congrArg Part.v h))
  | pixel px py => exact absurd (.inr ⟨px, py, rfl⟩) hp
  | _ => rfl

/-- An update of registers that keeps all but `V[x]` and `VF`: the frame of the flag-writing instructions (R22). -/
theorem unchanged_of_v_flag (v : Vector Byte 16) (x : RegIdx)
    (h : ∀ r, r ≠ x → r ≠ vF → ({ s with v := v } : State).getV r = s.getV r) :
    UnchangedExcept s { s with v := v } (fun p => p = .v x ∨ p = .v vF) := fun p hp => by
  cases p with
  | v r => exact h r (fun e => hp (.inl (congrArg Part.v e))) (fun e => hp (.inr (congrArg Part.v e)))
  | _ => rfl

theorem unchanged_writeFlagThenResult (x : RegIdx) (flag result : Byte) :
    UnchangedExcept s (s.writeFlagThenResult x flag result) (fun p => p = .v x ∨ p = .v vF) := by
  rw [State.writeFlagThenResult_eq]
  refine unchanged_of_v_flag s _ x fun r h1 h2 => ?_
  rw [← State.writeFlagThenResult_eq, State.getV_writeFlagThenResult, if_neg h1, if_neg h2]

theorem unchanged_writeLogicResult (clear : Bool) (x : RegIdx) (result : Byte) :
    UnchangedExcept s (s.writeLogicResult clear x result) (fun p => p = .v x ∨ p = .v vF) := by
  rw [State.writeLogicResult_eq]
  refine unchanged_of_v_flag s _ x fun r h1 h2 => ?_
  rw [← State.writeLogicResult_eq, State.getV_writeLogicResult, if_neg fun h => h2 h.1, if_neg h1]

theorem unchanged_beginTransaction : UnchangedExcept s s.beginTransaction (fun p => p = .output ∨ p = .schedule) := fun p hp => by
  cases p <;> first | rfl | exact absurd (.inl rfl) hp | exact absurd (.inr rfl) hp

end Sys2Proof.Machine
end

