-- ==== Sys2Proof/Laws/Exec.lean ====
section
/-! SUPPORT. What an instruction can do to the status and to memory, said once for all 35. -/

namespace Sys2Proof.Machine

/-- An instruction keeps the status, or waits for a key (`Fx0A`), or raises a fatal condition and changes nothing else. -/
theorem exec_status {i : Instr} {s t : State} (h : exec i s = .next t) :
    t.status = s.status ∨ (∃ x, i = .ldK x ∧ t.status = .waitingForKey x) ∨ ∃ f info, t = s.raise f info := by
  cases i <;> simp only [exec, execSys, execCls, execRet, execJp, execCall, execJpV0, execSeImm, execSneImm, execSeReg,
    execSneReg, execLdImm, execAddImm, execLdReg, execOrReg, execAndReg, execXorReg, execAddReg, execSubReg, execShr,
    execSubnReg, execShl, execLdI, execRnd, execDrw, execSkp, execSknp, execLdFromDT, execLdK, execLdDT, execLdST, execAddI,
    execLdF, execLdB, execStRegs, execLdRegs, State.skipIf_eq, State.guardRange, State.writeFlagThenResult,
    State.writeLogicResult] at h
  all_goals (repeat' split at h)
  all_goals simp only [Host.Outcome.next.injEq] at h
  all_goals subst h
  all_goals first
    | exact .inl rfl
    | exact .inr (.inr ⟨_, _, rfl⟩)
    | exact .inr (.inl ⟨_, rfl, rfl⟩)
    | exact .inl (by simp)

/-- An instruction leaves memory alone or writes bytes to it. -/
theorem exec_mem {i : Instr} {s t : State} (h : exec i s = .next t) :
    t.mem = s.mem ∨ ∃ base bs, t.mem = s.mem.writeBytes base bs := by
  cases i <;> simp only [exec, execSys, execCls, execRet, execJp, execCall, execJpV0, execSeImm, execSneImm, execSeReg,
    execSneReg, execLdImm, execAddImm, execLdReg, execOrReg, execAndReg, execXorReg, execAddReg, execSubReg, execShr,
    execSubnReg, execShl, execLdI, execRnd, execDrw, execSkp, execSknp, execLdFromDT, execLdK, execLdDT, execLdST, execAddI,
    execLdF, execLdB, execStRegs, execLdRegs, State.skipIf_eq, State.guardRange, State.writeFlagThenResult,
    State.writeLogicResult] at h
  all_goals (repeat' split at h)
  all_goals simp only [Host.Outcome.next.injEq] at h
  all_goals subst h
  all_goals first
    | exact .inl rfl
    | exact .inr ⟨_, _, rfl⟩
    | exact .inl (by simp)

end Sys2Proof.Machine
end

