-- ==== Sys2Proof/Laws/PerInstr.lean ====
section
/-! SUPPORT. Per instruction: the encoder's word carries the row of the opcode table (30_encoding.md R75): `w & mask == match`. -/

namespace Sys2Proof.Laws.TableRow

/-- The mask of the instruction's row in R75. -/
def mask : Instr → Word
  | .sys _ => 0xF000
  | .cls => 0xFFFF
  | .ret => 0xFFFF
  | .jp _ => 0xF000
  | .call _ => 0xF000
  | .seImm _ _ => 0xF000
  | .sneImm _ _ => 0xF000
  | .seReg _ _ => 0xF00F
  | .ldImm _ _ => 0xF000
  | .addImm _ _ => 0xF000
  | .ldReg _ _ => 0xF00F
  | .orReg _ _ => 0xF00F
  | .andReg _ _ => 0xF00F
  | .xorReg _ _ => 0xF00F
  | .addReg _ _ => 0xF00F
  | .subReg _ _ => 0xF00F
  | .shr _ _ => 0xF00F
  | .subnReg _ _ => 0xF00F
  | .shl _ _ => 0xF00F
  | .sneReg _ _ => 0xF00F
  | .ldI _ => 0xF000
  | .jpV0 _ => 0xF000
  | .rnd _ _ => 0xF000
  | .drw _ _ _ => 0xF000
  | .skp _ => 0xF0FF
  | .sknp _ => 0xF0FF
  | .ldFromDT _ => 0xF0FF
  | .ldK _ => 0xF0FF
  | .ldDT _ => 0xF0FF
  | .ldST _ => 0xF0FF
  | .addI _ => 0xF0FF
  | .ldF _ => 0xF0FF
  | .ldB _ => 0xF0FF
  | .stRegs _ => 0xF0FF
  | .ldRegs _ => 0xF0FF

/-- The match value of the instruction's row in R75. -/
def pattern : Instr → Word
  | .sys _ => 0x0000
  | .cls => 0x00E0
  | .ret => 0x00EE
  | .jp _ => 0x1000
  | .call _ => 0x2000
  | .seImm _ _ => 0x3000
  | .sneImm _ _ => 0x4000
  | .seReg _ _ => 0x5000
  | .ldImm _ _ => 0x6000
  | .addImm _ _ => 0x7000
  | .ldReg _ _ => 0x8000
  | .orReg _ _ => 0x8001
  | .andReg _ _ => 0x8002
  | .xorReg _ _ => 0x8003
  | .addReg _ _ => 0x8004
  | .subReg _ _ => 0x8005
  | .shr _ _ => 0x8006
  | .subnReg _ _ => 0x8007
  | .shl _ _ => 0x800E
  | .sneReg _ _ => 0x9000
  | .ldI _ => 0xA000
  | .jpV0 _ => 0xB000
  | .rnd _ _ => 0xC000
  | .drw _ _ _ => 0xD000
  | .skp _ => 0xE09E
  | .sknp _ => 0xE0A1
  | .ldFromDT _ => 0xF007
  | .ldK _ => 0xF00A
  | .ldDT _ => 0xF015
  | .ldST _ => 0xF018
  | .addI _ => 0xF01E
  | .ldF _ => 0xF029
  | .ldB _ => 0xF033
  | .stRegs _ => 0xF055
  | .ldRegs _ => 0xF065

/-- The word of the instruction selects its row of R75. -/
def Statement (i : Instr) : Prop := encode i &&& mask i = pattern i

theorem and_ones_nibble : ∀ a : Nibble, a &&& 15#4 = a := by decide
theorem and_ones_byte : ∀ a : Byte, a &&& 255#8 = a := by decide

theorem wordNnn_mask (op : Nibble) (nnn : Addr) : wordNnn op nnn &&& 0xF000 = wordNnn op 0 := by
  change op ++ nnn &&& (0xF#4 ++ 0x000#12) = op ++ 0#12
  rw [BitVec.and_append]
  congr <;> simp [and_ones_nibble]

theorem wordXnn_mask (op x : Nibble) (nn : Byte) : wordXnn op x nn &&& 0xF000 = wordXnn op 0 0 := by
  change op ++ x ++ nn &&& (0xF#4 ++ 0#4 ++ 0#8) = op ++ 0#4 ++ 0#8
  rw [BitVec.and_append, BitVec.and_append]
  congr <;> simp [and_ones_nibble]

theorem wordXnn_mask_nn (op x : Nibble) (nn : Byte) : wordXnn op x nn &&& 0xF0FF = wordXnn op 0 nn := by
  change op ++ x ++ nn &&& (0xF#4 ++ 0#4 ++ 0xFF#8) = op ++ 0#4 ++ nn
  rw [BitVec.and_append, BitVec.and_append]
  congr <;> simp [and_ones_nibble, and_ones_byte]

theorem wordXyn_mask (op x y n : Nibble) : wordXyn op x y n &&& 0xF000 = wordXyn op 0 0 0 := by
  change op ++ x ++ y ++ n &&& (0xF#4 ++ 0#4 ++ 0#4 ++ 0#4) = op ++ 0#4 ++ 0#4 ++ 0#4
  rw [BitVec.and_append, BitVec.and_append, BitVec.and_append]
  congr <;> simp [and_ones_nibble]

theorem wordXyn_mask_n (op x y n : Nibble) : wordXyn op x y n &&& 0xF00F = wordXyn op 0 0 n := by
  change op ++ x ++ y ++ n &&& (0xF#4 ++ 0#4 ++ 0#4 ++ 0xF#4) = op ++ 0#4 ++ 0#4 ++ n
  rw [BitVec.and_append, BitVec.and_append, BitVec.and_append]
  congr <;> simp [and_ones_nibble]

theorem sys (nnn : Addr) : Statement (.sys nnn) := wordNnn_mask _ _
theorem cls : Statement .cls := rfl
theorem ret : Statement .ret := rfl
theorem jp (nnn : Addr) : Statement (.jp nnn) := wordNnn_mask _ _
theorem call (nnn : Addr) : Statement (.call nnn) := wordNnn_mask _ _
theorem seImm (x : RegIdx) (nn : Byte) : Statement (.seImm x nn) := wordXnn_mask _ _ _
theorem sneImm (x : RegIdx) (nn : Byte) : Statement (.sneImm x nn) := wordXnn_mask _ _ _
theorem seReg (x : RegIdx) (y : RegIdx) : Statement (.seReg x y) := wordXyn_mask_n _ _ _ _
theorem ldImm (x : RegIdx) (nn : Byte) : Statement (.ldImm x nn) := wordXnn_mask _ _ _
theorem addImm (x : RegIdx) (nn : Byte) : Statement (.addImm x nn) := wordXnn_mask _ _ _
theorem ldReg (x : RegIdx) (y : RegIdx) : Statement (.ldReg x y) := wordXyn_mask_n _ _ _ _
theorem orReg (x : RegIdx) (y : RegIdx) : Statement (.orReg x y) := wordXyn_mask_n _ _ _ _
theorem andReg (x : RegIdx) (y : RegIdx) : Statement (.andReg x y) := wordXyn_mask_n _ _ _ _
theorem xorReg (x : RegIdx) (y : RegIdx) : Statement (.xorReg x y) := wordXyn_mask_n _ _ _ _
theorem addReg (x : RegIdx) (y : RegIdx) : Statement (.addReg x y) := wordXyn_mask_n _ _ _ _
theorem subReg (x : RegIdx) (y : RegIdx) : Statement (.subReg x y) := wordXyn_mask_n _ _ _ _
theorem shr (x : RegIdx) (y : RegIdx) : Statement (.shr x y) := wordXyn_mask_n _ _ _ _
theorem subnReg (x : RegIdx) (y : RegIdx) : Statement (.subnReg x y) := wordXyn_mask_n _ _ _ _
theorem shl (x : RegIdx) (y : RegIdx) : Statement (.shl x y) := wordXyn_mask_n _ _ _ _
theorem sneReg (x : RegIdx) (y : RegIdx) : Statement (.sneReg x y) := wordXyn_mask_n _ _ _ _
theorem ldI (nnn : Addr) : Statement (.ldI nnn) := wordNnn_mask _ _
theorem jpV0 (nnn : Addr) : Statement (.jpV0 nnn) := wordNnn_mask _ _
theorem rnd (x : RegIdx) (nn : Byte) : Statement (.rnd x nn) := wordXnn_mask _ _ _
theorem drw (x : RegIdx) (y : RegIdx) (n : Nibble) : Statement (.drw x y n) := wordXyn_mask _ _ _ _
theorem skp (x : RegIdx) : Statement (.skp x) := wordXnn_mask_nn _ _ _
theorem sknp (x : RegIdx) : Statement (.sknp x) := wordXnn_mask_nn _ _ _
theorem ldFromDT (x : RegIdx) : Statement (.ldFromDT x) := wordXnn_mask_nn _ _ _
theorem ldK (x : RegIdx) : Statement (.ldK x) := wordXnn_mask_nn _ _ _
theorem ldDT (x : RegIdx) : Statement (.ldDT x) := wordXnn_mask_nn _ _ _
theorem ldST (x : RegIdx) : Statement (.ldST x) := wordXnn_mask_nn _ _ _
theorem addI (x : RegIdx) : Statement (.addI x) := wordXnn_mask_nn _ _ _
theorem ldF (x : RegIdx) : Statement (.ldF x) := wordXnn_mask_nn _ _ _
theorem ldB (x : RegIdx) : Statement (.ldB x) := wordXnn_mask_nn _ _ _
theorem stRegs (x : RegIdx) : Statement (.stRegs x) := wordXnn_mask_nn _ _ _
theorem ldRegs (x : RegIdx) : Statement (.ldRegs x) := wordXnn_mask_nn _ _ _

end Sys2Proof.Laws.TableRow
end

