-- ==== Sys2Proof/Laws/Step.lean ====
section
/-! SUPPORT. What a step can do, said once: by transaction, and for a cycle by status. -/

namespace Sys2Proof.Machine

/-- A step is one transaction of R8: a cycle, or the effect of one of the other agents. -/
theorem step_cases {s t : State} (h : step s = .next t) :
    (s.nextTransaction = .cycle ∧ cycle s.beginTransaction = .next t) ∨
    (s.nextTransaction = .tick ∧ t = tick s.beginTransaction) ∨
    (∃ k held, s.nextTransaction = .setKey k held ∧ t = setKey k held s.beginTransaction) ∨
    (s.nextTransaction = .reset ∧ t = performReset s.beginTransaction) ∨
    (∃ image address, s.nextTransaction = .load image address ∧ t = load image address s.beginTransaction) ∨
    (∃ px py, s.nextTransaction = .readPixel px py ∧ t = readPixel px py s.beginTransaction) ∨
    (s.nextTransaction = .readSound ∧ t = readSound s.beginTransaction) := by
  unfold step perform at h
  split at h
  · next e => exact .inl ⟨e, h⟩
  · next e => exact .inr (.inl ⟨e, by simpa using h.symm⟩)
  · next k held e => exact .inr (.inr (.inl ⟨k, held, e, by simpa using h.symm⟩))
  · next e => exact .inr (.inr (.inr (.inl ⟨e, by simpa using h.symm⟩)))
  · next im a e => exact .inr (.inr (.inr (.inr (.inl ⟨im, a, e, by simpa using h.symm⟩))))
  · next px py e => exact .inr (.inr (.inr (.inr (.inr (.inl ⟨px, py, e, by simpa using h.symm⟩)))))
  · next e => exact .inr (.inr (.inr (.inr (.inr (.inr ⟨e, by simpa using h.symm⟩)))))

/-- A cycle, by the status (R90): nothing, a poll, a failed fetch, an unknown word skipped, or an instruction. -/
theorem cycle_cases {s t : State} (h : cycle s = .next t) :
    (∃ f info, s.status = .halted f info ∧ t = s) ∨
    (∃ r, s.status = .waitingForKey r ∧ t = keyWaitPoll r s) ∨
    (s.status = .running ∧ 4094 < s.pc.toNat ∧ t = s.raise .fetchOutOfBounds s.pc) ∨
    (s.status = .running ∧ s.pc.toNat ≤ 4094 ∧ ∃ w, decode s.fetchWord = .unknown w ∧ t = s.advancePc.emit (.unknownOpcode w)) ∨
    (s.status = .running ∧ s.pc.toNat ≤ 4094 ∧ ∃ i, decode s.fetchWord = .instr i ∧ exec i s.advancePc = .next t) := by
  unfold cycle at h
  split at h
  · next f info hs => exact .inl ⟨f, info, hs, by simpa using h.symm⟩
  · next r hs => exact .inr (.inl ⟨r, hs, by simpa using h.symm⟩)
  · next hs =>
    unfold fetchDecodeExecute at h
    split at h
    · next hp => exact .inr (.inr (.inl ⟨hs, hp, by simpa using h.symm⟩))
    · next hp =>
      have hp : s.pc.toNat ≤ 4094 := Nat.not_lt.1 hp
      split at h
      · next i hi => exact .inr (.inr (.inr (.inr ⟨hs, hp, i, hi, h⟩)))
      · next w hw =>
        have ht : s.advancePc.emit (.unknownOpcode w) = t := by simpa [executeUnknown, hardware] using h
        exact .inr (.inr (.inr (.inl ⟨hs, hp, w, hw, ht.symm⟩)))

/-- The poll of a waiting engine (R202): nothing, or the wait is resolved by a latched key. -/
theorem keyWaitPoll_cases (r : RegIdx) (s : State) :
    (pressedKeys s.keyEdge = [] ∧ keyWaitPoll r s = s) ∨
    ∃ k ∈ pressedKeys s.keyEdge, keyWaitPoll r s =
      { s.setV r (byteOfKey k) with
        keyEdge := Vector.replicate 16 false, status := .running, keyDraws := s.keyDraws + 1 } := by
  unfold keyWaitPoll
  split
  · next h => exact .inl ⟨h, rfl⟩
  · next k ks h => exact .inr ⟨_, selectKey_mem s.keyEdge _ (by simp [h]), rfl⟩

/-- A step of a running engine, when a cycle comes next. -/
theorem step_running {s : State} (h1 : s.nextTransaction = .cycle) (h2 : s.status = .running) :
    step s = fetchDecodeExecute s.beginTransaction := by
  unfold step perform
  rw [h1]
  simp only [cycle, State.beginTransaction_status, h2]

/-- The model's bookkeeping around a transaction leaves the fetch alone. -/
theorem fetchWord_beginTransaction (s : State) : s.beginTransaction.fetchWord = s.fetchWord := rfl

end Sys2Proof.Machine
end

