-- ==== Sys2Proof/Machine/Assembly.lean ====
section
/-! DEFINITION. The assembler syntax of R75's listing (30_encoding.md R81): registers, bytes, addresses and nibbles in hex. Nothing else in
the model depends on it. -/

namespace Sys2Proof.Machine

/-- One hex digit. -/
def hexDigit (n : Nibble) : String :=
  ["0", "1", "2", "3", "4", "5", "6", "7", "8", "9", "A", "B", "C", "D", "E", "F"].getD n.toNat ""

/-- A byte `nn`, two hex digits. -/
def hexByte (b : Byte) : String := hexDigit (b.extractLsb' 4 4) ++ hexDigit (b.extractLsb' 0 4)

/-- An address `nnn`, three hex digits. -/
def hexAddr (a : Addr) : String := hexDigit (a.extractLsb' 8 4) ++ hexDigit (a.extractLsb' 4 4) ++ hexDigit (a.extractLsb' 0 4)

/-- `Vx`: `V` followed by one hex digit. -/
def regName (x : RegIdx) : String := "V" ++ hexDigit x

/-- Two operands, destination first. -/
def operands (mnemonic a b : String) : String := mnemonic ++ " " ++ a ++ ", " ++ b

/-- The spelling of an instruction, from the syntax column of R75. -/
def assembly : Instr → String
  | .sys nnn => "SYS " ++ hexAddr nnn
  | .cls => "CLS"
  | .ret => "RET"
  | .jp nnn => "JP " ++ hexAddr nnn
  | .call nnn => "CALL " ++ hexAddr nnn
  | .seImm x nn => operands "SE" (regName x) (hexByte nn)
  | .sneImm x nn => operands "SNE" (regName x) (hexByte nn)
  | .seReg x y => operands "SE" (regName x) (regName y)
  | .ldImm x nn => operands "LD" (regName x) (hexByte nn)
  | .addImm x nn => operands "ADD" (regName x) (hexByte nn)
  | .ldReg x y => operands "LD" (regName x) (regName y)
  | .orReg x y => operands "OR" (regName x) (regName y)
  | .andReg x y => operands "AND" (regName x) (regName y)
  | .xorReg x y => operands "XOR" (regName x) (regName y)
  | .addReg x y => operands "ADD" (regName x) (regName y)
  | .subReg x y => operands "SUB" (regName x) (regName y)
  | .shr x _ => "SHR " ++ regName x
  | .subnReg x y => operands "SUBN" (regName x) (regName y)
  | .shl x _ => "SHL " ++ regName x
  | .sneReg x y => operands "SNE" (regName x) (regName y)
  | .ldI nnn => operands "LD" "I" (hexAddr nnn)
  | .jpV0 nnn => operands "JP" "V0" (hexAddr nnn)
  | .rnd x nn => operands "RND" (regName x) (hexByte nn)
  | .drw x y n => operands "DRW" (regName x) (regName y) ++ ", " ++ hexDigit n
  | .skp x => "SKP " ++ regName x
  | .sknp x => "SKNP " ++ regName x
  | .ldFromDT x => operands "LD" (regName x) "DT"
  | .ldK x => operands "LD" (regName x) "K"
  | .ldDT x => operands "LD" "DT" (regName x)
  | .ldST x => operands "LD" "ST" (regName x)
  | .addI x => operands "ADD" "I" (regName x)
  | .ldF x => operands "LD" "F" (regName x)
  | .ldB x => operands "LD" "B" (regName x)
  | .stRegs x => operands "LD" "[I]" (regName x)
  | .ldRegs x => operands "LD" (regName x) "[I]"

end Sys2Proof.Machine
end

