-- ==== Sys2Proof/Tests/Slice0.lean ====
section
/-! SUPPORT. The model's own tests. Expected results come from spec/: the vectors of 95_test_vectors.md (named L1.n, Vn.m), the examples of
the rules, and the encodings of 30_encoding.md R75 written out bit by bit. Last come the witnesses of the statements' hypotheses. -/

namespace Sys2Proof.Tests

open Sys2Proof Sys2Proof.Machine

/-! ## Well-formedness: the two words that are not SYS (R75) -/

theorem test_sys_0E0_is_illFormed : (Instr.sys 0x0E0).wellFormed = false := by decide
theorem test_sys_0EE_is_illFormed : (Instr.sys 0x0EE).wellFormed = false := by decide
theorem test_sys_1E0_is_wellFormed : (Instr.sys 0x1E0).wellFormed = true := by decide

/-! ## Decoding: a word of every row of R75, bit by bit -/

theorem test_decode_control :
    decode 0b0000_0001_0010_0011#16 = .instr (.sys 0x123) ∧
    decode 0b0000_0000_1110_0000#16 = .instr (.cls) ∧
    decode 0b0000_0000_1110_1110#16 = .instr (.ret) ∧
    decode 0b0001_0010_0011_0100#16 = .instr (.jp 0x234) ∧
    decode 0b0010_0011_0000_0001#16 = .instr (.call 0x301) ∧
    decode 0b1011_0001_0010_0011#16 = .instr (.jpV0 0x123) := by decide
theorem test_decode_skips :
    decode 0b0011_0011_0100_0010#16 = .instr (.seImm 3 0x42) ∧
    decode 0b0100_0011_0100_0010#16 = .instr (.sneImm 3 0x42) ∧
    decode 0b0101_0001_0010_0000#16 = .instr (.seReg 1 2) ∧
    decode 0b1001_0001_0010_0000#16 = .instr (.sneReg 1 2) := by decide
theorem test_decode_assignment :
    decode 0b0110_1010_1001_1101#16 = .instr (.ldImm 0xA 0x9D) ∧
    decode 0b0111_0000_0000_0011#16 = .instr (.addImm 0 3) ∧
    decode 0b1000_1110_1111_0000#16 = .instr (.ldReg 0xE 0xF) ∧
    decode 0b1010_0001_0010_0011#16 = .instr (.ldI 0x123) ∧
    decode 0b1100_0011_0000_1111#16 = .instr (.rnd 3 0x0F) := by decide
theorem test_decode_alu :
    decode 0b1000_0001_0010_0001#16 = .instr (.orReg 1 2) ∧
    decode 0b1000_0001_0010_0010#16 = .instr (.andReg 1 2) ∧
    decode 0b1000_0001_0010_0011#16 = .instr (.xorReg 1 2) ∧
    decode 0b1000_0001_0010_0100#16 = .instr (.addReg 1 2) ∧
    decode 0b1000_0001_0010_0101#16 = .instr (.subReg 1 2) ∧
    decode 0b1000_0010_0111_0110#16 = .instr (.shr 2 7) ∧
    decode 0b1000_0001_0010_0111#16 = .instr (.subnReg 1 2) ∧
    decode 0b1000_0010_0111_1110#16 = .instr (.shl 2 7) := by decide
theorem test_decode_sprite :
    decode 0b1101_0010_0011_0101#16 = .instr (.drw 2 3 5) := by decide
theorem test_decode_keyboard :
    decode 0b1110_0001_1001_1110#16 = .instr (.skp 1) ∧
    decode 0b1110_0001_1010_0001#16 = .instr (.sknp 1) ∧
    decode 0b1111_0011_0000_1010#16 = .instr (.ldK 3) := by decide
theorem test_decode_timers_memory :
    decode 0b1111_0011_0000_0111#16 = .instr (.ldFromDT 3) ∧
    decode 0b1111_0011_0001_0101#16 = .instr (.ldDT 3) ∧
    decode 0b1111_0100_0001_1000#16 = .instr (.ldST 4) ∧
    decode 0b1111_0101_0001_1110#16 = .instr (.addI 5) ∧
    decode 0b1111_0010_0010_1001#16 = .instr (.ldF 2) ∧
    decode 0b1111_0101_0011_0011#16 = .instr (.ldB 5) ∧
    decode 0b1111_0010_0101_0101#16 = .instr (.stRegs 2) ∧
    decode 0b1111_0010_0110_0101#16 = .instr (.ldRegs 2) := by decide

/-- The decode table of 95_test_vectors.md L2.1, strict column: what is Unknown or SYS. -/
theorem test_decode_strict_words :
    decode 0x01E0 = .instr (.sys 0x1E0) ∧ decode 0x0000 = .instr (.sys 0) ∧ decode 0x5121 = .unknown 0x5121 ∧
    decode 0x9121 = .unknown 0x9121 ∧ decode 0x8008 = .unknown 0x8008 ∧ decode 0xE000 = .unknown 0xE000 ∧
    decode 0xF0FF = .unknown 0xF0FF := by decide

/-- The same table, loose column (R78). -/
theorem test_decode_loose_words :
    decodeWith true 0x01E0 = .instr .cls ∧ decodeWith true 0x01EE = .instr .ret ∧ decodeWith true 0x5121 = .instr (.seReg 1 2) ∧
    decodeWith true 0x9121 = .instr (.sneReg 1 2) ∧ decodeWith true 0x800F = .unknown 0x800F := by decide

/-- R71's layout of table words: 16 bits, and operand bits left out read as 0. -/
theorem test_decodeTableWord : decodeTableWord 16 0xF533 = some (.ldB 5) ∧ decodeTableWord 16 0x5001 = none := by decide

/-- R81's spellings, as the programs of 95_test_vectors.md write them. -/
theorem test_assembly :
    assembly (.ldImm 0xA 0x9D) = "LD VA, 9D" ∧ assembly (.drw 0 0 5) = "DRW V0, V0, 5" ∧ assembly (.stRegs 1) = "LD [I], V1" ∧
    assembly (.sys 0) = "SYS 000" := by decide

/-! ## One cycle each -/

/-- What `f` reads after one step of `s` with the word `w` placed where the step fetches. -/
def after {α : Type} (f : State → α) (s : State) (w : Nat) : Option α :=
  match step (s.withFetchWord 16 w) with
  | .next t => some (f t)
  | .fault _ => none
  | .refused _ => none

/-- What `f` reads after one step of `s`. -/
def stepped {α : Type} (f : State → α) (s : State) : Option α :=
  match step s with
  | .next t => some (f t)
  | .fault _ => none
  | .refused _ => none

/-- The reset state with some registers written. -/
def withV (l : List (RegIdx × Byte)) : State := l.foldl (fun s p => s.setV p.1 p.2) State.reset

/-- V2.1, R100. -/
theorem test_sys_reports : after (fun t => (t.pc, t.output)) State.reset 0x0123 = some (0x202, some (.report (.ignoredMachineCall 0x0123))) := by decide
/-- V2.2. -/
theorem test_cls_clears : after (fun t => (t.fb.pixel 5 5, t.fb.pixel 63 31, t.getV vF, t.pc)) { withV [(vF, 1)] with fb := (Framebuffer.blank.setPixel 5 5 true).setPixel 63 31 true } 0x00E0 = some (false, false, 1, 0x202) := by decide
/-- V2.3. -/
theorem test_jp : after (fun t => t.pc) State.reset 0x1234 = some 0x234 := by decide
/-- V2.6. -/
theorem test_call : after (fun t => (t.stack[0], t.sp, t.pc)) State.reset 0x2300 = some (0x202, 1, 0x300) := by decide
/-- V2.7, V9.1. -/
theorem test_call_overflow : after (fun t => (t.status, t.sp, t.pc)) { State.reset with sp := 16, stack := Vector.replicate 16 0x202 } 0x2300 = some (.halted .stackOverflow 0x202, 16, 0x202) := by decide
/-- V2.8. -/
theorem test_ret : after (fun t => (t.sp, t.pc, t.stack[1])) { State.reset with sp := 2, stack := (Vector.replicate 16 0x206).set 1 0x456 } 0x00EE = some (1, 0x456, 0x456) := by decide
/-- V2.9. -/
theorem test_ret_underflow : after (fun t => (t.status, t.sp, t.pc)) State.reset 0x00EE = some (.halted .stackUnderflow 0x202, 0, 0x202) := by decide
/-- V2.11: not narrowed. -/
theorem test_jpV0_past_memory : after (fun t => t.pc) (withV [(0, 0xFF)]) 0xBFFF = some 0x10FE := by decide
/-- V2.12. -/
theorem test_jpV0_uses_V0 : after (fun t => t.pc) (withV [(0, 0x01), (1, 0x99)]) 0xB200 = some 0x201 := by decide
/-- V3.1. -/
theorem test_seImm_taken : after (fun t => t.pc) (withV [(3, 0x42)]) 0x3342 = some 0x204 := by decide
/-- V3.2. -/
theorem test_seImm_not_taken : after (fun t => t.pc) (withV [(3, 0x42)]) 0x3343 = some 0x202 := by decide
/-- V3.4. -/
theorem test_sneImm_taken : after (fun t => t.pc) (withV [(3, 0x42)]) 0x4300 = some 0x204 := by decide
/-- V3.3. -/
theorem test_sneImm_not_taken : after (fun t => t.pc) (withV [(3, 0x42)]) 0x4342 = some 0x202 := by decide
/-- V3.5. -/
theorem test_seReg_taken : after (fun t => t.pc) (withV [(1, 7), (2, 7)]) 0x5120 = some 0x204 := by decide
/-- V3.6. -/
theorem test_seReg_not_taken : after (fun t => t.pc) (withV [(1, 7), (2, 8)]) 0x5120 = some 0x202 := by decide
/-- V3.8. -/
theorem test_sneReg_taken : after (fun t => t.pc) (withV [(1, 7), (2, 8)]) 0x9120 = some 0x204 := by decide
/-- V3.9. -/
theorem test_sneReg_same_register : after (fun t => t.pc) (withV [(1, 7)]) 0x9110 = some 0x202 := by decide
/-- V4.1. -/
theorem test_ldImm : after (fun t => (t.getV 0xA, t.pc)) State.reset 0x6A9D = some (0x9D, 0x202) := by decide
/-- V4.2: no flag. -/
theorem test_addImm_wraps : after (fun t => (t.getV 0, t.getV vF)) (withV [(0, 0xFE), (vF, 5)]) 0x7003 = some (1, 5) := by decide
/-- V4.28. -/
theorem test_ldReg_from_VF : after (fun t => (t.getV 0xE, t.getV vF)) (withV [(vF, 1)]) 0x8EF0 = some (1, 1) := by decide
/-- V4.20. -/
theorem test_or : after (fun t => (t.getV 0, t.getV vF)) (withV [(0, 0x0F), (1, 0xF0), (vF, 1)]) 0x8011 = some (0xFF, 0) := by decide
/-- V4.22: the clear comes last. -/
theorem test_or_into_VF : after (fun t => t.getV vF) (withV [(1, 0xF0), (vF, 0x0F)]) 0x8F11 = some 0 := by decide
/-- V4.24. -/
theorem test_and : after (fun t => (t.getV 0, t.getV vF)) (withV [(0, 0x3C), (1, 0x0F), (vF, 1)]) 0x8012 = some (0x0C, 0) := by decide
/-- V4.25. -/
theorem test_xor : after (fun t => (t.getV 0, t.getV vF)) (withV [(0, 0xFF), (1, 0x0F)]) 0x8013 = some (0xF0, 0) := by decide
/-- V4.26. -/
theorem test_xor_same_register : after (fun t => (t.getV 0, t.getV vF)) (withV [(0, 0x5A)]) 0x8003 = some (0, 0) := by decide
/-- L1.3. -/
theorem test_add_carry : after (fun t => (t.getV 0, t.getV vF)) (withV [(0, 0xC8), (1, 0x64)]) 0x8014 = some (0x2C, 1) := by decide
/-- V4.3: the result comes last. -/
theorem test_add_into_VF : after (fun t => t.getV vF) (withV [(1, 0xF5), (vF, 0x10)]) 0x8F14 = some 5 := by decide
/-- L1.4. -/
theorem test_sub_borrow : after (fun t => (t.getV 0, t.getV vF)) (withV [(0, 5), (1, 7)]) 0x8015 = some (0xFE, 0) := by decide
/-- V4.5: the old VF is subtracted. -/
theorem test_sub_old_VF : after (fun t => (t.getV 0, t.getV vF)) (withV [(0, 5), (vF, 3)]) 0x80F5 = some (2, 1) := by decide
/-- V4.8. -/
theorem test_shr_ignores_y : after (fun t => (t.getV 2, t.getV 7, t.getV vF)) (withV [(2, 5), (7, 0x99)]) 0x8276 = some (2, 0x99, 1) := by decide
/-- V4.12. -/
theorem test_shr_of_VF : after (fun t => t.getV vF) (withV [(vF, 2)]) 0x8F06 = some 1 := by decide
/-- V4.13. -/
theorem test_subn_borrow : after (fun t => (t.getV 0, t.getV vF)) (withV [(0, 7), (1, 5)]) 0x8017 = some (0xFE, 0) := by decide
/-- V4.15. -/
theorem test_subn_equal : after (fun t => (t.getV 0, t.getV vF)) (withV [(0, 5), (1, 5)]) 0x8017 = some (0, 1) := by decide
/-- V4.16. -/
theorem test_shl_carry_out : after (fun t => (t.getV 2, t.getV vF)) (withV [(2, 0x81)]) 0x820E = some (2, 1) := by decide
/-- V4.19. -/
theorem test_shl_of_VF : after (fun t => t.getV vF) (withV [(vF, 0x81)]) 0x8F0E = some 2 := by decide
/-- V4.30. -/
theorem test_ldI : after (fun t => t.i) State.reset 0xA123 = some 0x0123 := by decide
/-- V4.32: with `nn` = 0 the register is 0 whatever the draw, and one draw is taken. -/
theorem test_rnd_masks_everything :
    after (fun t => (t.getV 3, t.randomDraws)) State.reset 0xC300 = some (Config.randomByte 0 &&& 0, 1) := rfl
theorem test_rnd_masked_to_zero : (Config.randomByte 0 &&& 0 : Byte) = 0 := BitVec.and_zero
/-- L1.6, first draw: rows 0 and 1 of glyph 0. -/
theorem test_drw_glyph : after (fun t => ((List.finRange 5).map (fun k => t.fb.pixel (k.castLE (by decide)) 0), (List.finRange 5).map (fun k => t.fb.pixel (k.castLE (by decide)) 1), t.getV vF)) State.reset 0xD005 = some ([true, true, true, true, false], [true, false, false, true, false], 0) := by decide
/-- L1.7: the sprite at (63, 31). -/
theorem test_drw_wraps : after (fun t => ([t.fb.pixel 63 31, t.fb.pixel 0 31, t.fb.pixel 2 31, t.fb.pixel 3 31], [t.fb.pixel 63 0, t.fb.pixel 0 0, t.fb.pixel 2 0])) (withV [(0, 0x3F), (1, 0x1F)]) 0xD015 = some ([true, true, true, false], [true, false, true]) := by decide
/-- V5.5. -/
theorem test_drw_collision : after (fun t => (t.fb.pixel 0 0, t.fb.pixel 1 0, t.getV vF)) { (State.reset.setI 0x300).storeBytes 0x300 [0xC0] with fb := Framebuffer.blank.setPixel 0 0 true } 0xD001 = some (false, true, 1) := by decide
/-- V5.1: no fault. -/
theorem test_drw_no_rows : after (fun t => (t.status, t.getV vF)) ((withV [(vF, 1)]).setI 0xFFF0) 0xD000 = some (.running, 0) := by decide
/-- V5.2. -/
theorem test_drw_past_memory : after (fun t => (t.status, t.fb.pixel 0 0, t.getV vF, t.pc)) { (withV [(vF, 7)]).setI 0xFFE with fb := Framebuffer.blank.setPixel 0 0 true } 0xD003 = some (.halted .memoryOutOfBounds 0xFFE, true, 7, 0x202) := by decide
/-- V6.1. -/
theorem test_skp_held : after (fun t => t.pc) { withV [(5, 7)] with keyHeld := (Vector.replicate 16 false).set 7 true } 0xE59E = some 0x204 := by decide
/-- V6.5. -/
theorem test_skp_index_16 : after (fun t => (t.status, t.pc)) (withV [(5, 0x10)]) 0xE59E = some (.halted .keyIndexOutOfRange 0x10, 0x202) := by decide
/-- V6.3. -/
theorem test_sknp_not_held : after (fun t => t.pc) (withV [(5, 7)]) 0xE5A1 = some 0x204 := by decide
/-- V6.4. -/
theorem test_sknp_held : after (fun t => t.pc) { withV [(5, 7)] with keyHeld := (Vector.replicate 16 false).set 7 true } 0xE5A1 = some 0x202 := by decide
/-- V7.1. -/
theorem test_ldFromDT : after (fun t => (t.getV 3, t.dt)) { State.reset with dt := 0x3C } 0xF307 = some (0x3C, 0x3C) := by decide
/-- V7.2. -/
theorem test_ldDT : after (fun t => t.dt) (withV [(3, 0x3C)]) 0xF315 = some 0x3C := by decide
/-- V7.5. -/
theorem test_ldST : after (fun t => t.st) (withV [(4, 2)]) 0xF418 = some 2 := by decide
/-- V7.8. -/
theorem test_addI_past_memory : after (fun t => (t.i, t.getV vF)) ((withV [(0, 5)]).setI 0x0FFE) 0xF01E = some (0x1003, 0) := by decide
/-- V7.9. -/
theorem test_addI_wraps : after (fun t => t.i) ((withV [(0, 1)]).setI 0xFFFF) 0xF01E = some 0 := by decide
/-- V7.12. -/
theorem test_ldF_no_mask : after (fun t => t.i) (withV [(2, 0xFF)]) 0xF229 = some 0x04FB := by decide
/-- L1.10. -/
theorem test_ldB : after (fun t => (t.mem.readBytes 0x300 3, t.i, t.pc)) ((withV [(5, 157)]).setI 0x300) 0xF533 = some ([1, 5, 7], 0x300, 0x202) := by decide
/-- V7.17. -/
theorem test_ldB_last_bytes : after (fun t => (t.status, t.mem.readBytes 0xFFD 3)) ((withV [(5, 0x9D)]).setI 0xFFD) 0xF533 = some (.running, [1, 5, 7]) := by decide
/-- V7.16. -/
theorem test_ldB_past_memory : after (fun t => (t.status, t.mem.readBytes 0xFFE 2, t.pc)) ((withV [(5, 0x9D)]).setI 0xFFE) 0xF533 = some (.halted .memoryOutOfBounds 0xFFE, [0, 0], 0x202) := by decide
/-- V7.18. -/
theorem test_stRegs : after (fun t => (t.mem.readBytes 0x400 4, t.i)) ((withV [(0, 1), (1, 2), (2, 3), (3, 9)]).setI 0x400) 0xF255 = some ([1, 2, 3, 0], 0x403) := by decide
/-- V7.20. -/
theorem test_stRegs_past_memory : after (fun t => (t.status, t.i)) (State.reset.setI 0xFF1) 0xFF55 = some (.halted .memoryOutOfBounds 0xFF1, 0xFF1) := by decide
/-- V7.22. -/
theorem test_ldRegs : after (fun t => ([t.getV 0, t.getV 1, t.getV 2, t.getV 3], t.i)) (((withV [(3, 0x99)]).setI 0x300).storeBytes 0x300 [1, 5, 7]) 0xF265 = some ([1, 5, 7, 0x99], 0x303) := by decide
/-- V7.24. -/
theorem test_ldRegs_past_memory : after (fun t => (t.status, t.getV 0, t.i)) ((withV [(0, 3)]).setI 0x1000) 0xF065 = some (.halted .memoryOutOfBounds 0x1000, 3, 0x1000) := by decide
/-- V8.1, V8.5: the latch is cleared. -/
theorem test_ldK_ignores_a_held_key : after (fun t => (t.status, t.pc, t.keyEdge[7])) { State.reset with keyHeld := (Vector.replicate 16 false).set 7 true, keyEdge := (Vector.replicate 16 false).set 7 true } 0xF30A = some (.waitingForKey 3, 0x202, false) := by decide

/-! ## The cycle, the parameters and the other transactions -/

/-- V1.5. -/
theorem test_unknown_word_skipped : after (fun t => (t.pc, t.output, t.status)) State.reset 0x8008 = some (0x202, some (.report (.unknownOpcode 0x8008)), .running) := by decide
/-- V1.6: the other policy of R93. -/
theorem test_unknown_word_fatal :
    executeUnknown .fatal 0x8008 State.reset.advancePc = .next (State.reset.advancePc.raise .unknownOpcode 0x8008) := rfl
/-- V4.21, V4.23: the other convention of R133. -/
theorem test_or_without_clear :
    ((withV [(0, 0x0F), (1, 0xF0), (vF, 1)]).writeLogicResult false 0 0xFF).getV vF = 1 ∧
    ((withV [(1, 0xF0), (vF, 0x0F)]).writeLogicResult false vF 0xFF).getV vF = 0xFF := by decide
/-- V1.1: CLS at 0xFFE runs and leaves PC = 0x1000. -/
theorem test_fetch_at_the_last_word : stepped (fun t => (t.pc, t.status)) { State.reset.storeBytes 0xFFE [0x00, 0xE0] with pc := 0xFFE } = some (0x1000, .running) := by decide
/-- V1.3, V9.3. -/
theorem test_fetch_past_memory : stepped (fun t => (t.pc, t.status)) { State.reset with pc := 0xFFF } = some (0xFFF, .halted .fetchOutOfBounds 0xFFF) := by decide
/-- V1.4. -/
theorem test_fetch_at_an_odd_address : stepped (fun t => (t.getV 0, t.pc)) { State.reset.storeBytes 0x201 [0x60, 0x42] with pc := 0x201 } = some (0x42, 0x203) := by decide
/-- V1.8. -/
theorem test_halted_cycle : stepped (fun t => (t.pc, t.status, t.output)) { State.reset with status := .halted .stackOverflow 0x202 } = some (0x200, .halted .stackOverflow 0x202, none) := by decide
/-- V8.2. -/
theorem test_waiting_cycle_without_press : stepped (fun t => (t.pc, t.status, t.getV 3)) { State.reset with status := .waitingForKey 3, pc := 0x202 } = some (0x202, .waitingForKey 3, 0) := by decide
/-- V8.3, V8.4: a single latched press resolves the wait, whatever the draw, and nothing is fetched. -/
theorem test_waiting_cycle_with_press :
    stepped (fun t => (t.getV 3, t.status, t.keyEdge[7], t.pc))
      { State.reset with status := .waitingForKey 3, pc := 0x202, keyEdge := (Vector.replicate 16 false).set 7 true } =
      some (7, .running, false, 0x202) := by
  have one : ∀ n, selectKey ((Vector.replicate 16 false).set 7 true) n = 7 := fun n => by
    have h : pressedKeys ((Vector.replicate 16 false).set 7 true) = [7] := by decide
    simp [selectKey, h, Nat.mod_one]
  simp only [stepped, step, perform, State.nextTransaction, State.reset, List.headD_nil, cycle, State.beginTransaction, keyWaitPoll, one]
  decide
/-- R34. -/
theorem test_setKey_latches_a_press : stepped (fun t => (t.keyHeld[7], t.keyEdge[7])) { State.reset with schedule := [.setKey 7 true] } = some (true, true) := by decide
/-- V8.4, R34. -/
theorem test_setKey_keeps_the_latch_on_release : stepped (fun t => (t.keyHeld[7], t.keyEdge[7])) { State.reset with schedule := [.setKey 7 false], keyHeld := (Vector.replicate 16 false).set 7 true, keyEdge := (Vector.replicate 16 false).set 7 true } = some (false, true) := by decide
/-- V10.8. -/
theorem test_tick : stepped (fun t => (t.dt, t.st)) { State.reset with schedule := [.tick], dt := 2, st := 1 } = some (1, 0) := by decide
/-- V7.4, V9.6. -/
theorem test_tick_clamps_while_halted : stepped (fun t => (t.dt, t.st, t.status)) { State.reset with schedule := [.tick], dt := 5, status := .halted .stackOverflow 0x202 } = some (4, 0, .halted .stackOverflow 0x202) := by decide
/-- L1.1, V9.7, V10.4. -/
theorem test_reset_from_halted : stepped (fun t => (t.getV 3, t.i, t.pc, t.status, t.mem.readBytes 0 5)) { ((withV [(3, 7)]).setI 0x345).storeBytes 0 [0xFF] with pc := 0x456, status := .halted .stackOverflow 0x202, schedule := [.reset] } = some (0, 0, 0x200, .running, [0xF0, 0x90, 0x90, 0x90, 0xF0]) := by decide
/-- V10.5, V10.6 (general knowledge G1). -/
theorem test_glyph_A_and_the_byte_after_the_table : stepped (fun t => (t.mem.readBytes 0x032 5, t.mem.readBytes 0x04F 2)) { State.reset with schedule := [.readSound] } = some ([0xF0, 0x90, 0xF0, 0x90, 0x90], [0x80, 0x00]) := by decide
/-- L1.2. -/
theorem test_load : stepped (fun t => (t.mem.readBytes 0x200 4, t.output, t.pc)) { State.reset with schedule := [.load [0xAA, 0xBB, 0xCC] 0x200] } = some ([0xAA, 0xBB, 0xCC, 0x00], some (.load .ok), 0x200) := by decide
/-- V10.3. -/
theorem test_load_oversize : stepped (fun t => (t.mem.readBytes 0xFFF 1, t.output)) { State.reset with schedule := [.load [0xAB, 0xCD] 0xFFF] } = some ([0x00], some (.load .oversizeImage)) := by decide
/-- R31, R227, V7.6. -/
theorem test_readPixel_and_sound : (stepped (fun t => t.output) { State.reset with schedule := [.readSound], st := 1 }) = some (some (.soundActive true)) := by decide
/-- R243: boot with an image of one instruction; its first cycle runs it. -/
theorem test_boot :
    (match core.run 3 { State.reset with schedule := bootSequence [0x6A, 0x9D] } with
      | .next t => some (t.getV 0xA, t.pc)
      | _ => none) = some (0x9D, 0x202) := by decide
/-- R212: the codes. -/
theorem test_fatal_codes :
    [FatalCondition.fetchOutOfBounds, .stackOverflow, .stackUnderflow, .memoryOutOfBounds, .keyIndexOutOfRange,
      .unknownOpcode].map FatalCondition.code = [1, 2, 3, 4, 5, 6] := by decide

/-! ## Witnesses: a concrete state and operands that meet a statement's hypotheses, for each clause, at a boundary where it has one -/

/-- The next state of a step, for the witnesses. -/
def nextOf (s : State) : State :=
  match step s with
  | .next t => t
  | .fault _ => s
  | .refused _ => s

theorem witness_DecodeOfEncode : (Instr.sys 0x0EF).wellFormed = true ∧ (Instr.ldRegs 0xF).wellFormed = true := by decide
theorem witness_EncodeOfDecode : decode 0xFF65 = .instr (.ldRegs 0xF) := by decide

/-- A running engine at the last address that can be fetched, where a `LD VA, 9D` stands. -/
def atLastWord : State := { State.reset.storeBytes 0xFFE [0x6A, 0x9D] with pc := 0xFFE }

theorem witness_StepRunsTheDecodedInstruction :
    atLastWord.nextTransaction = .cycle ∧ atLastWord.status = .running ∧ atLastWord.pc.toNat ≤ 4094 ∧
    (0x6A9D#16).toNat = (atLastWord.mem.readByte (BitVec.ofNat 12 atLastWord.pc.toNat)).toNat * 256 +
      (atLastWord.mem.readByte (BitVec.ofNat 12 (atLastWord.pc.toNat + 1))).toNat ∧
    decode 0x6A9D = .instr (.ldImm 0xA 0x9D) := by decide

/-- The reset state with an unknown word at 0x200. -/
def atUnknownWord : State := State.reset.placeWord 0x800F

theorem witness_UnknownWordIsReportedAndSkipped :
    atUnknownWord.nextTransaction = .cycle ∧ atUnknownWord.status = .running ∧ atUnknownWord.pc.toNat ≤ 4094 ∧
    decode atUnknownWord.fetchWord = .unknown 0x800F := by decide

theorem witness_FetchPastMemoryHalts :
    ({ State.reset with pc := 0xFFF } : State).nextTransaction = .cycle ∧
    ({ State.reset with pc := 0xFFF } : State).status = .running ∧ ({ State.reset with pc := 0xFFF } : State).pc.toNat > 4094 := by
  decide

/-- A halted engine. -/
def haltedState : State := { State.reset with status := .halted .stackOverflow 0x202 }

theorem witness_HaltedCycleDoesNothing :
    haltedState.nextTransaction = .cycle ∧ haltedState.status = .halted .stackOverflow 0x202 := by decide

/-- The reset state with `LD V3, K` at 0x200. -/
def atKeyWait : State := State.reset.placeWord 0xF30A

theorem witness_StatusTransitions_step : step atKeyWait = .next (nextOf atKeyWait) := rfl
theorem witness_StatusTransitions_reset :
    ({ haltedState with schedule := [.reset] } : State).nextTransaction = .reset := by decide
theorem witness_StatusTransitions_keyWait :
    atKeyWait.nextTransaction = .cycle ∧ atKeyWait.status = .running ∧ atKeyWait.pc.toNat ≤ 4094 ∧
    decode atKeyWait.fetchWord = .instr (.ldK 3) := by decide

/-- An engine that waits for V3, with the highest key latched. -/
def pressedState : State :=
  { State.reset with status := .waitingForKey 3, keyEdge := (Vector.replicate 16 false).set 15 true }

theorem witness_StatusTransitions_press :
    pressedState.nextTransaction = .cycle ∧ pressedState.status = .waitingForKey 3 ∧
    ∃ k : Key, pressedState.keyEdge[k.val] = true := by decide

/-- The reset state with a RET at 0x200. -/
def atRet : State := State.reset.placeWord 0x00EE

theorem witness_FatalConditionsArePrecise :
    atRet.nextTransaction = .cycle ∧ atRet.status = .running ∧ step atRet = .next (nextOf atRet) ∧
    (nextOf atRet).status = .halted .stackUnderflow 0x202 := ⟨by decide, by decide, rfl, by decide⟩

theorem witness_FatalConditionsArePrecise_fetch :
    (nextOf { State.reset with pc := 0xFFF }).status = .halted .fetchOutOfBounds 0xFFF := by decide

theorem witness_InstructionsHaltOnlyForListedCauses :
    State.reset.status = .running ∧
    exec (.skp 5) (State.reset.setV 5 0x10) = .next ((State.reset.setV 5 0x10).raise .keyIndexOutOfRange 0x10) ∧
    ((State.reset.setV 5 0x10).raise .keyIndexOutOfRange 0x10).status = .halted .keyIndexOutOfRange 0x10 := ⟨rfl, rfl, rfl⟩

theorem witness_OnlyListedWritersWrite :
    exec (.ldI 0x123) State.reset = .next (State.reset.setI 0x123) ∧ ¬ Same .i State.reset (State.reset.setI 0x123) :=
  ⟨rfl, by unfold Same; decide⟩

theorem witness_StepKeepsMemoryCanonical : atLastWord.memoryCanonical ∧ step atLastWord = .next (nextOf atLastWord) :=
  ⟨by unfold State.memoryCanonical; decide, rfl⟩

theorem witness_StepKeepsPcBounded :
    ({ State.reset with pc := 0x10FE, stack := Vector.replicate 16 0x1000 } : State).pcBounded ∧
    step { State.reset with pc := 0x10FE, stack := Vector.replicate 16 0x1000 } =
      .next (nextOf { State.reset with pc := 0x10FE, stack := Vector.replicate 16 0x1000 }) :=
  ⟨by unfold State.pcBounded; decide, rfl⟩

theorem witness_ResetLeavesTheResetState : ({ haltedState with schedule := [.reset, .tick] } : State).nextTransaction = .reset := by
  decide

theorem witness_LoadCopiesTheImage_fits :
    ({ State.reset with schedule := [.load [0xAB] 0xFFF] } : State).nextTransaction = .load [0xAB] 0xFFF ∧
    0xFFF + [0xAB#8].length ≤ 4096 := by decide
theorem witness_LoadCopiesTheImage_oversize :
    ({ State.reset with schedule := [.load [0xAB, 0xCD] 0xFFF] } : State).nextTransaction = .load [0xAB, 0xCD] 0xFFF ∧
    4096 < 0xFFF + [0xAB#8, 0xCD#8].length := by decide

theorem witness_TickCountsBothTimersDown : ({ State.reset with schedule := [.tick] } : State).nextTransaction = .tick := by decide
theorem witness_SetKeyLatchesThePress :
    ({ State.reset with schedule := [.setKey 15 true] } : State).nextTransaction = .setKey 15 true := by decide
theorem witness_OutsideReadsChangeNothing :
    ({ State.reset with schedule := [.readPixel 63 31] } : State).nextTransaction = .readPixel 63 31 ∧
    ({ State.reset with schedule := [.readSound] } : State).nextTransaction = .readSound := by decide

theorem witness_KeyWaitEnds_noPress :
    ({ pressedState with keyEdge := Vector.replicate 16 false } : State).nextTransaction = .cycle ∧
    ({ pressedState with keyEdge := Vector.replicate 16 false } : State).status = .waitingForKey 3 ∧
    ∀ k : Key, ({ pressedState with keyEdge := Vector.replicate 16 false } : State).keyEdge[k.val] = false := by decide
theorem witness_KeyWaitEnds_press :
    pressedState.nextTransaction = .cycle ∧ pressedState.status = .waitingForKey 3 ∧
    pressedState.keyEdge[(15 : Key).val] = true := by decide

theorem witness_SelectKeyDrawsAnyLatchedKey :
    (((Vector.replicate 16 false).set 15 true)[(15 : Key).val] = true) ∧
    ∀ j : Key, ((Vector.replicate 16 false).set 15 true)[j.val] = true ↔ j = 15 := by decide

theorem witness_SysIsReportedAndIgnored : fieldOp 0x00EF = 0x0 ∧ (0x00EF : Word) ≠ 0x00E0 ∧ (0x00EF : Word) ≠ 0x00EE := by decide
theorem witness_CallPushes_room : ({ State.reset with sp := 15 } : State).sp.val < 16 := by decide
theorem witness_CallPushes_full : ({ State.reset with sp := 16 } : State).sp.val = 16 := by decide
theorem witness_RetPops_entry : 0 < ({ State.reset with sp := 1 } : State).sp.val ∧ 0 < ({ State.reset with sp := 16 } : State).sp.val := by
  decide
theorem witness_RetPops_empty : State.reset.sp.val = 0 := by decide
theorem witness_SeReg_otherWords : fieldOp 0x512F = 0x5 ∧ fieldN 0x512F ≠ 0 := by decide
theorem witness_SneReg_otherWords : fieldOp 0x9121 = 0x9 ∧ fieldN 0x9121 ≠ 0 := by decide
theorem witness_flag_writers_x_is_not_VF : (0xE : RegIdx) ≠ vF := by decide

theorem witness_DrawXors_lastBytes : (State.reset.setI 0xFF1).i.toNat + (15 : Nibble).toNat - 1 ≤ 0xFFF := by decide
theorem witness_DrawXors_noRows : (0 : Nibble).toNat = 0 := by decide
theorem witness_DrawXors_collision :
    State.reset.spriteLights 0 0 5 0 0 ∧ ({ State.reset with fb := Framebuffer.blank.setPixel 0 0 true } : State).fb.pixel 0 0 = true :=
  ⟨⟨0, 0, by decide⟩, by decide⟩
theorem witness_DrawXors_dark :
    ¬ State.reset.spriteLights 0 0 1 0 1 ∧ ∀ px py, State.reset.spriteLights 0 0 1 px py → State.reset.fb.pixel px py = false := by
  refine ⟨?_, fun px py _ => ?_⟩
  · rintro ⟨row, col, hrow, _, _, _, h⟩
    have : row = 0 := by omega
    subst this
    exact absurd h (by decide)
  · exact (by decide : ∀ px py, State.reset.fb.pixel px py = false) px py
theorem witness_DrawPastMemoryHalts : 1 ≤ (1 : Nibble).toNat ∧ 0xFFF < (State.reset.setI 0x1000).i.toNat + (1 : Nibble).toNat - 1 := by
  decide

theorem witness_KeyIndex_inRange : (15 : Key).val = ((State.reset.setV 5 0x0F).getV 5).toNat := by decide
theorem witness_KeyIndex_past : 15 < ((State.reset.setV 5 0x10).getV 5).toNat := by decide

theorem witness_Bcd_fits : (State.reset.setI 0xFFD).i.toNat + 2 ≤ 0xFFF := by decide
theorem witness_Bcd_past : 0xFFF < (State.reset.setI 0xFFE).i.toNat + 2 := by decide
theorem witness_RegisterBlock_fits :
    (State.reset.setI 0xFF0).i.toNat + (15 : RegIdx).toNat ≤ 0xFFF ∧ (15 : RegIdx).toNat ≤ (15 : RegIdx).toNat := by decide
theorem witness_RegisterBlock_past : 0xFFF < (State.reset.setI 0xFF1).i.toNat + (15 : RegIdx).toNat := by decide

end Sys2Proof.Tests
end

section
/-! PROOFS. Control flow (40_control_flow.md): what each instruction answers, the frame of the two updates that have no law of their
own yet, and the statements about CLS, JP, CALL, RET and JP V0. -/

namespace Sys2Proof.Machine

/-! ## What the instructions answer -/

theorem exec_cls (s : State) : exec .cls s = .next { s with fb := Framebuffer.blank } := rfl

theorem exec_jp (nnn : Addr) (s : State) : exec (.jp nnn) s = .next (s.setPc (zextAddr nnn)) := rfl

theorem exec_jpV0 (nnn : Addr) (s : State) :
    exec (.jpV0 nnn) s = .next (s.setPc (zextAddr nnn + zextByte (s.getV 0))) := rfl

theorem exec_call_of_lt (nnn : Addr) (s : State) (h : s.sp.val < 16) :
    exec (.call nnn) s = .next ((s.push h).setPc (zextAddr nnn)) := dif_pos h

theorem exec_call_of_full (nnn : Addr) (s : State) (h : s.sp.val = 16) :
    exec (.call nnn) s = .next (s.raise .stackOverflow s.pc) := dif_neg (by omega)

theorem exec_ret_of_pos (s : State) (h : 0 < s.sp.val) : exec .ret s = .next s.pop := if_neg (by omega)

theorem exec_ret_of_empty (s : State) (h : s.sp.val = 0) :
    exec .ret s = .next (s.raise .stackUnderflow s.pc) := if_pos h

/-! ## The updates -/

/-- A replaced framebuffer is framed by its cells (R31). -/
theorem unchanged_of_fb (s : State) (fb : Framebuffer) :
    UnchangedExcept s { s with fb := fb } (fun p => ∃ px py, p = .pixel px py) := fun p hp => by
  cases p with
  | pixel px py => exact absurd ⟨px, py, rfl⟩ hp
  | _ => rfl

/-- A push followed by a jump writes `PC`, `SP` and the entry at the old `SP` (R103). -/
theorem unchanged_push_setPc (s : State) (h : s.sp.val < 16) (a : Word) :
    UnchangedExcept s ((s.push h).setPc a) (fun p => p = .pc ∨ p = .sp ∨ ∃ j, p = .stackEntry j ∧ j.val = s.sp.val) :=
  ((unchanged_push s h).mono fun _ => .inr).trans ((unchanged_setPc _ a).mono fun _ => .inl)

/-- A pop takes `PC` from the entry at the new `SP` (R104). -/
theorem State.pop_pc_of_entry (s : State) (j : Fin 16) (h : j.val = s.pop.sp.val) : s.pop.pc = s.stack[j.val] :=
  getElem_congr_idx h.symm

/-- The target of `JP V0` is at most 0x10FE, so 16 bits hold it (R105). -/
theorem toNat_zextAddr_add_zextByte (a : Addr) (b : Byte) : (zextAddr a + zextByte b).toNat = a.toNat + b.toNat := by
  rw [BitVec.toNat_add, toNat_zextAddr, toNat_zextByte]
  exact Nat.mod_eq_of_lt (by omega)

/-! ## The statements -/

/-- Settles O29: with room the call is a push and a jump, with SP = 16 it raises `StackOverflow`. -/
theorem callPushesTheReturnAddress : Obligations.CallPushesTheReturnAddress := by
  unfold Obligations.CallPushesTheReturnAddress
  refine fun nnn s => ⟨fun room => ?_, fun full => ?_⟩
  · refine ⟨_, exec_call_of_lt nnn s room, fun j hj => ?_, State.push_sp s room, toNat_zextAddr nnn, unchanged_push_setPc s room _⟩
    exact (State.getElem_push_stack s room j).trans (if_pos hj)
  · exact ⟨_, exec_call_of_full nnn s full, State.raise_status s _ _, unchanged_raise s _ _⟩

/-- Settles O30: with an entry the return is a pop, with SP = 0 it raises `StackUnderflow`. -/
theorem retPopsTheReturnAddress : Obligations.RetPopsTheReturnAddress := by
  unfold Obligations.RetPopsTheReturnAddress
  refine fun s => ⟨fun entry => ?_, fun empty => ?_⟩
  · have sp_eq : s.pop.sp.val + 1 = s.sp.val := by rw [State.pop_sp, Nat.sub_add_cancel entry]
    exact ⟨_, exec_ret_of_pos s entry, sp_eq, State.pop_pc_of_entry s, unchanged_pop s⟩
  · exact ⟨_, exec_ret_of_empty s empty, State.raise_status s _ _, unchanged_raise s _ _⟩

/-- Settles O27: the new framebuffer is the blank one. -/
theorem clsClearsTheFramebuffer : Obligations.ClsClearsTheFramebuffer := by
  unfold Obligations.ClsClearsTheFramebuffer
  exact fun s => ⟨_, exec_cls s, Framebuffer.pixel_blank, unchanged_of_fb s _⟩

/-- Settles O28: the jump is one write of `PC`. -/
theorem jpSetsThePc : Obligations.JpSetsThePc := by
  unfold Obligations.JpSetsThePc
  exact fun nnn s => ⟨_, exec_jp nnn s, toNat_zextAddr nnn, unchanged_setPc s _⟩

/-- Settles O31: the sum of an address and a byte does not reach 2^16. -/
theorem jpV0AddsV0Unnarrowed : Obligations.JpV0AddsV0Unnarrowed := by
  unfold Obligations.JpV0AddsV0Unnarrowed
  exact fun nnn s => ⟨_, exec_jpV0 nnn s, toNat_zextAddr_add_zextByte nnn _, unchanged_setPc s _⟩

end Sys2Proof.Machine
end

section
/-! PROOFS. Skips on an immediate (41_conditional_skip.md): what SE and SNE answer, `PC` after a skip and the frame of a skip, and the
statements about the two instructions. -/

namespace Sys2Proof.Machine

/-! ## What the instructions answer -/

theorem exec_seImm (x : RegIdx) (nn : Byte) (s : State) :
    exec (.seImm x nn) s = .next (s.skipIf (s.getV x == nn)) := rfl

theorem exec_sneImm (x : RegIdx) (nn : Byte) (s : State) :
    exec (.sneImm x nn) s = .next (s.skipIf (s.getV x != nn)) := rfl

/-! ## The skip -/

/-- `PC` after a skip, by the proposition that the Boolean test decides (R120 to R123). -/
theorem State.skipIf_pc_of_iff (s : State) {taken : Bool} {cond : Prop} [Decidable cond] (h : taken = true ↔ cond) :
    (s.skipIf taken).pc = if cond then s.pc + 2 else s.pc := by
  rw [State.skipIf_eq, State.setPc_pc]
  exact if_congr h rfl rfl

/-- A skip writes `PC` at most, taken or not. -/
theorem unchanged_skipIf (s : State) (taken : Bool) : UnchangedExcept s (s.skipIf taken) (fun p => p = .pc) := by
  rw [State.skipIf_eq]
  exact unchanged_setPc s _

/-! ## The statements -/

/-- Settles O32: the skip's test is the equality of `V[x]` and `nn`. -/
theorem seImmSkipsIfEqual : Obligations.SeImmSkipsIfEqual := by
  unfold Obligations.SeImmSkipsIfEqual
  exact fun x nn s => ⟨_, exec_seImm x nn s, s.skipIf_pc_of_iff beq_iff_eq, unchanged_skipIf s _⟩

/-- Settles O33: the skip's test is the difference of `V[x]` and `nn`. -/
theorem sneImmSkipsIfDifferent : Obligations.SneImmSkipsIfDifferent := by
  unfold Obligations.SneImmSkipsIfDifferent
  exact fun x nn s => ⟨_, exec_sneImm x nn s, s.skipIf_pc_of_iff bne_iff_ne, unchanged_skipIf s _⟩

end Sys2Proof.Machine
end

section
/-! PROOFS. The one-write instructions of 42_alu.md, none of which writes a flag: what LD and ADD with an immediate, LD between registers
and LD I answer, and the statements about them. -/

namespace Sys2Proof.Machine

/-! ## What the instructions answer -/

theorem exec_ldImm (x : RegIdx) (nn : Byte) (s : State) : exec (.ldImm x nn) s = .next (s.setV x nn) := rfl

theorem exec_addImm (x : RegIdx) (nn : Byte) (s : State) :
    exec (.addImm x nn) s = .next (s.setV x (s.getV x + nn)) := rfl

theorem exec_ldReg (x y : RegIdx) (s : State) : exec (.ldReg x y) s = .next (s.setV x (s.getV y)) := rfl

theorem exec_ldI (nnn : Addr) (s : State) : exec (.ldI nnn) s = .next (s.setI (zextAddr nnn)) := rfl

/-! ## The written register -/

theorem State.getV_setV_self (s : State) (r : RegIdx) (b : Byte) : (s.setV r b).getV r = b :=
  (State.getV_setV s r r b).trans (if_pos rfl)

/-! ## The statements -/

/-- Settles O36: the instruction is one write of `V[x]`. -/
theorem ldImmLoadsTheByte : Obligations.LdImmLoadsTheByte := by
  unfold Obligations.LdImmLoadsTheByte
  exact fun x nn s => ⟨_, exec_ldImm x nn s, s.getV_setV_self x nn, unchanged_setV s x _⟩

/-- Settles O37: the byte written is the sum of two bytes, which wraps modulo 2^8. -/
theorem addImmWrapsWithoutFlag : Obligations.AddImmWrapsWithoutFlag := by
  unfold Obligations.AddImmWrapsWithoutFlag
  refine fun x nn s => ⟨_, exec_addImm x nn s, ?_, unchanged_setV s x _⟩
  rw [State.getV_setV_self]
  exact BitVec.toNat_add _ _

/-- Settles O38: the instruction is one write of `V[x]`, of the byte read from `V[y]` before it. -/
theorem ldRegCopies : Obligations.LdRegCopies := by
  unfold Obligations.LdRegCopies
  exact fun x y s => ⟨_, exec_ldReg x y s, s.getV_setV_self x _, unchanged_setV s x _⟩

/-- Settles O45: the instruction is one write of `I`, and zero-extension keeps the address. -/
theorem ldISetsTheIndex : Obligations.LdISetsTheIndex := by
  unfold Obligations.LdISetsTheIndex
  exact fun nnn s => ⟨_, exec_ldI nnn s, toNat_zextAddr nnn, unchanged_setI s _⟩

end Sys2Proof.Machine
end

section
/-! PROOFS. The delay timer and the glyph pointer (45_timers_memory.md): what LD Vx, DT, LD DT, Vx and LD F, Vx answer, the frame of a
write of `DT`, the address of a glyph, and the statements about the three instructions. -/

namespace Sys2Proof.Machine

/-! ## What the instructions answer -/

theorem exec_ldFromDT (x : RegIdx) (s : State) : exec (.ldFromDT x) s = .next (s.setV x s.dt) := rfl

theorem exec_ldDT (x : RegIdx) (s : State) : exec (.ldDT x) s = .next { s with dt := s.getV x } := rfl

theorem exec_ldF (x : RegIdx) (s : State) :
    exec (.ldF x) s = .next (s.setI (BitVec.ofNat 16 ((s.getV x).toNat * 5))) := rfl

/-! ## The updates -/

theorem unchanged_of_dt (s : State) (b : Byte) : UnchangedExcept s { s with dt := b } (fun p => p = .dt) := fun p hp => by
  cases p with
  | dt => exact absurd rfl hp
  | _ => rfl

/-- Five times a byte is at most 0x04FB, so 16 bits hold it (R184). -/
theorem toNat_ofNat_byte_mul_five (b : Byte) : (BitVec.ofNat 16 (b.toNat * 5)).toNat = b.toNat * 5 := by
  rw [BitVec.toNat_ofNat]
  exact Nat.mod_eq_of_lt (by omega)

/-! ## The statements -/

/-- Settles O51: the instruction is one write of `V[x]`, of the timer's byte. -/
theorem ldFromDTReadsTheDelayTimer : Obligations.LdFromDTReadsTheDelayTimer := by
  unfold Obligations.LdFromDTReadsTheDelayTimer
  exact fun x s => ⟨_, exec_ldFromDT x s, s.getV_setV_self x _, unchanged_setV s x _⟩

/-- Settles O52: the instruction is one write of `DT`. -/
theorem ldDTWritesTheDelayTimer : Obligations.LdDTWritesTheDelayTimer := by
  unfold Obligations.LdDTWritesTheDelayTimer
  exact fun x s => ⟨_, exec_ldDT x s, rfl, unchanged_of_dt s _⟩

/-- Settles O55: the instruction is one write of `I`, and the product does not reach 2^16. -/
theorem ldFPointsAtTheGlyph : Obligations.LdFPointsAtTheGlyph := by
  unfold Obligations.LdFPointsAtTheGlyph
  exact fun x s => ⟨_, exec_ldF x s, toNat_ofNat_byte_mul_five _, unchanged_setI s _⟩

end Sys2Proof.Machine
end

section
/-! PROOFS. The decoder (30_encoding.md R70 to R79): the words that each family takes, encoder and decoder as inverses of each other, the
words rejected, and the loose reading. -/

namespace Sys2Proof

/-! ## A word of a known family, put together from its fields -/

section assembled
variable {w : Word} {op n : Nibble}

theorem wordNnn_of_op (h : fieldOp w = op) : wordNnn op (fieldNnn w) = w := h ▸ wordNnn_fields w
theorem wordXnn_of_op (h : fieldOp w = op) : wordXnn op (fieldX w) (fieldNn w) = w := h ▸ wordXnn_fields w
theorem wordXyn_of_op (h : fieldOp w = op) : wordXyn op (fieldX w) (fieldY w) (fieldN w) = w := h ▸ wordXyn_fields w
theorem wordXyn_of_op_n (h : fieldOp w = op) (hn : fieldN w = n) : wordXyn op (fieldX w) (fieldY w) n = w :=
  hn ▸ wordXyn_of_op h

end assembled

/-! ## The strict reading of families 0, 5 and 9 (R77) -/

section strict
variable {w : Word}

theorem decode_op0_of_ne (hop : fieldOp w = 0x0) (not_cls : w ≠ 0x00E0) (not_ret : w ≠ 0x00EE) :
    decode w = .instr (.sys (fieldNnn w)) := by
  rw [decode_eq, decodeWith_op0 _ hop, decodeSystem, if_neg (by simpa using not_cls), if_neg (by simpa using not_ret)]

theorem decode_op5 (hop : fieldOp w = 0x5) :
    decode w = if fieldN w = 0x0 then .instr (.seReg (fieldX w) (fieldY w)) else .unknown w := by
  simp [decode_eq, decodeWith_op5 _ hop]

theorem decode_op9 (hop : fieldOp w = 0x9) :
    decode w = if fieldN w = 0x0 then .instr (.sneReg (fieldX w) (fieldY w)) else .unknown w := by
  simp [decode_eq, decodeWith_op9 _ hop]

end strict

/-! ## Decoding an encoding -/

/-- SYS is encoded as the word of its operand, which is decoded as SYS unless it is the word of CLS or RET (R75). -/
theorem decode_encode_sys {nnn : Addr} (h : (Instr.sys nnn).wellFormed = true) :
    decode (encode (.sys nnn)) = .instr (.sys nnn) := by
  obtain ⟨not_cls, not_ret⟩ : nnn ≠ 0x0E0 ∧ nnn ≠ 0x0EE := by simpa [Instr.wellFormed] using h
  have word_ne (a : Addr) (ha : nnn ≠ a) : wordNnn 0x0 nnn ≠ wordNnn 0x0 a := fun e =>
    ha (by simpa using congrArg fieldNnn e)
  exact (decode_op0_of_ne (fieldOp_wordNnn _ _) (word_ne 0x0E0 not_cls) (word_ne 0x0EE not_ret)).trans
    (by rw [fieldNnn_wordNnn])

/-- Settles O2: `op` selects the family, `n` or `nn` the instruction within it, and the operands are read back from their fields. -/
theorem decodeOfEncode : Obligations.DecodeOfEncode := by
  unfold Obligations.DecodeOfEncode
  intro i wf
  rw [decode_eq]
  cases i with
  | sys nnn => exact decode_encode_sys wf
  | cls | ret => rfl
  | jp nnn | call nnn | ldI nnn | jpV0 nnn => simp [encode, decodeWith]
  | seImm x nn | sneImm x nn | ldImm x nn | addImm x nn | rnd x nn => simp [encode, decodeWith]
  | seReg x y | sneReg x y | drw x y n => simp [encode, decodeWith]
  | ldReg x y | orReg x y | andReg x y | xorReg x y | addReg x y | subReg x y | shr x y | subnReg x y | shl x y =>
    rw [encode, decodeWith_op8 _ (fieldOp_wordXyn ..)]
    simp [decodeAlu]
  | skp x | sknp x =>
    rw [encode, decodeWith_opE _ (fieldOp_wordXnn ..)]
    simp [decodeKey]
  | ldFromDT x | ldK x | ldDT x | ldST x | addI x | ldF x | ldB x | stRegs x | ldRegs x =>
    rw [encode, decodeWith_opF _ (fieldOp_wordXnn ..)]
    simp [decodeMisc]

/-! ## Encoding what was decoded -/

/-- A word decodes to one instruction, so what its family's arm answers is enough. -/
theorem encode_of_arm {w : Word} {i j : Instr} (arm : decode w = .instr j) (h : decode w = .instr i)
    (hj : j.wellFormed = true ∧ encode j = w) : i.wellFormed = true ∧ encode i = w :=
  Decoded.instr.inj (arm.symm.trans h) ▸ hj

/-- Settles O3: in each family the instruction answered is encoded as the word that its fields make. -/
theorem encodeOfDecode : Obligations.EncodeOfDecode := by
  unfold Obligations.EncodeOfDecode
  intro w i h
  obtain hop | hop | hop | hop | hop | hop | hop | hop | hop | hop | hop | hop | hop | hop | hop | hop := fieldOp_cases w
  · exact encode_of_arm (decodeWith_op0 _ hop) h (encode_of_decodeSystem hop)
  · exact encode_of_arm (decodeWith_op1 _ hop) h ⟨rfl, wordNnn_of_op hop⟩
  · exact encode_of_arm (decodeWith_op2 _ hop) h ⟨rfl, wordNnn_of_op hop⟩
  · exact encode_of_arm (decodeWith_op3 _ hop) h ⟨rfl, wordXnn_of_op hop⟩
  · exact encode_of_arm (decodeWith_op4 _ hop) h ⟨rfl, wordXnn_of_op hop⟩
  · by_cases hn : fieldN w = 0x0
    · exact encode_of_arm ((decode_op5 hop).trans (if_pos hn)) h ⟨rfl, wordXyn_of_op_n hop hn⟩
    · exact absurd (((decode_op5 hop).trans (if_neg hn)).symm.trans h) Decoded.noConfusion
  · exact encode_of_arm (decodeWith_op6 _ hop) h ⟨rfl, wordXnn_of_op hop⟩
  · exact encode_of_arm (decodeWith_op7 _ hop) h ⟨rfl, wordXnn_of_op hop⟩
  · exact encode_of_decodeAlu hop ((decodeWith_op8 _ hop).symm.trans h)
  · by_cases hn : fieldN w = 0x0
    · exact encode_of_arm ((decode_op9 hop).trans (if_pos hn)) h ⟨rfl, wordXyn_of_op_n hop hn⟩
    · exact absurd (((decode_op9 hop).trans (if_neg hn)).symm.trans h) Decoded.noConfusion
  · exact encode_of_arm (decodeWith_opA _ hop) h ⟨rfl, wordNnn_of_op hop⟩
  · exact encode_of_arm (decodeWith_opB _ hop) h ⟨rfl, wordNnn_of_op hop⟩
  · exact encode_of_arm (decodeWith_opC _ hop) h ⟨rfl, wordXnn_of_op hop⟩
  · exact encode_of_arm (decodeWith_opD _ hop) h ⟨rfl, wordXyn_of_op hop⟩
  · exact encode_of_decodeKey hop ((decodeWith_opE _ hop).symm.trans h)
  · exact encode_of_decodeMisc hop ((decodeWith_opF _ hop).symm.trans h)

/-! ## The words rejected -/

theorem decodeAlu_eq_unknown_iff (w w' : Word) :
    decodeAlu w = .unknown w' ↔ w' = w ∧ fieldN w ∈ ([0x8, 0x9, 0xA, 0xB, 0xC, 0xD, 0xF] : List Nibble) := by
  have unlisted : ∀ n : Nibble, n ∈ ([0x8, 0x9, 0xA, 0xB, 0xC, 0xD, 0xF] : List Nibble) ↔
      n ∉ ([0x0, 0x1, 0x2, 0x3, 0x4, 0x5, 0x6, 0x7, 0xE] : List Nibble) := by decide
  rw [unlisted, decodeAlu, eq_comm (a := w')]
  split_ifs <;> simp_all

theorem decodeKey_eq_unknown_iff (w w' : Word) :
    decodeKey w = .unknown w' ↔ w' = w ∧ fieldNn w ∉ ([0x9E, 0xA1] : List Byte) := by
  rw [decodeKey, eq_comm (a := w')]
  split_ifs <;> simp_all

theorem decodeMisc_eq_unknown_iff (w w' : Word) :
    decodeMisc w = .unknown w' ↔
      w' = w ∧ fieldNn w ∉ ([0x07, 0x0A, 0x15, 0x18, 0x1E, 0x29, 0x33, 0x55, 0x65] : List Byte) := by
  rw [decodeMisc, eq_comm (a := w')]
  split_ifs <;> simp_all

/-- Settles O4: families 5 and 9 reject by `n`, 8 by `n`, E and F by `nn`, and no other family rejects. -/
theorem unknownWordsAreThoseListed : Obligations.UnknownWordsAreThoseListed := by
  unfold Obligations.UnknownWordsAreThoseListed
  intro w w'
  obtain hop | hop | hop | hop | hop | hop | hop | hop | hop | hop | hop | hop | hop | hop | hop | hop := fieldOp_cases w
  · simp [decode_eq, decodeWith_op0 _ hop, hop]
  · simp [decode_eq, decodeWith_op1 _ hop, hop]
  · simp [decode_eq, decodeWith_op2 _ hop, hop]
  · simp [decode_eq, decodeWith_op3 _ hop, hop]
  · simp [decode_eq, decodeWith_op4 _ hop, hop]
  · rw [decode_op5 hop, eq_comm (a := w')]
    split_ifs <;> simp_all
  · simp [decode_eq, decodeWith_op6 _ hop, hop]
  · simp [decode_eq, decodeWith_op7 _ hop, hop]
  · simp [decode_eq, decodeWith_op8 _ hop, decodeAlu_eq_unknown_iff, hop]
  · rw [decode_op9 hop, eq_comm (a := w')]
    split_ifs <;> simp_all
  · simp [decode_eq, decodeWith_opA _ hop, hop]
  · simp [decode_eq, decodeWith_opB _ hop, hop]
  · simp [decode_eq, decodeWith_opC _ hop, hop]
  · simp [decode_eq, decodeWith_opD _ hop, hop]
  · simp [decode_eq, decodeWith_opE _ hop, decodeKey_eq_unknown_iff, hop]
  · simp [decode_eq, decodeWith_opF _ hop, decodeMisc_eq_unknown_iff, hop]

/-! ## The loose reading -/

/-- The loose reading of family 0 (R78): CLS and RET by `nn` alone. -/
theorem decodeSystem_loose (w : Word) :
    decodeSystem true w = if fieldNn w = 0xE0 then .cls else if fieldNn w = 0xEE then .ret else .sys (fieldNnn w) := by
  have cls_nn : w = 0x00E0 → fieldNn w = 0xE0 := by rintro rfl; rfl
  have ret_nn : w = 0x00EE → fieldNn w = 0xEE := by rintro rfl; rfl
  simp only [decodeSystem, true_and, or_iff_right_of_imp cls_nn, or_iff_right_of_imp ret_nn]

/-- Settles O5: the decoder uses its argument `loose` in the arms of families 0, 5 and 9 only. -/
theorem looseDecodeDiffersInThreeArms : Obligations.LooseDecodeDiffersInThreeArms := by
  unfold Obligations.LooseDecodeDiffersInThreeArms
  intro w
  by_cases h0 : fieldOp w = 0x0
  · rw [if_pos h0, decodeWith_op0 _ h0, decodeSystem_loose]
  by_cases h5 : fieldOp w = 0x5
  · rw [if_neg h0, if_pos h5, decodeWith_op5 _ h5, if_pos (.inr rfl)]
  by_cases h9 : fieldOp w = 0x9
  · rw [if_neg h0, if_neg h5, if_pos h9, decodeWith_op9 _ h9, if_pos (.inr rfl)]
  · simp only [decodeWith, h0, h5, h9, if_false]

/-- Settles O1: the decoder is evaluated on the fifteen words. -/
theorem listedWordsDecode : Obligations.ListedWordsDecode := by
  unfold Obligations.ListedWordsDecode
  decide

end Sys2Proof
end

section
/-! PROOFS. The instructions of 42_alu.md that write `VF`, and RND: what they answer, the flag and the result after the two orders of
writing (R132), the flags as numbers, and the statements about them. -/

namespace Sys2Proof.Machine

/-! ## What the instructions answer -/

theorem exec_orReg (x y : RegIdx) (s : State) :
    exec (.orReg x y) s = .next (s.writeLogicResult true x (s.getV x ||| s.getV y)) := rfl

theorem exec_andReg (x y : RegIdx) (s : State) :
    exec (.andReg x y) s = .next (s.writeLogicResult true x (s.getV x &&& s.getV y)) := rfl

theorem exec_xorReg (x y : RegIdx) (s : State) :
    exec (.xorReg x y) s = .next (s.writeLogicResult true x (s.getV x ^^^ s.getV y)) := rfl

theorem exec_addReg (x y : RegIdx) (s : State) :
    exec (.addReg x y) s =
      .next (s.writeFlagThenResult x (carryFlag (s.getV x) (s.getV y)) (s.getV x + s.getV y)) := rfl

theorem exec_subReg (x y : RegIdx) (s : State) :
    exec (.subReg x y) s =
      .next (s.writeFlagThenResult x (noBorrowFlag (s.getV x) (s.getV y)) (s.getV x - s.getV y)) := rfl

theorem exec_shr (x y : RegIdx) (s : State) :
    exec (.shr x y) s = .next (s.writeFlagThenResult x (lowBitFlag (s.getV x)) (s.getV x >>> 1)) := rfl

theorem exec_subnReg (x y : RegIdx) (s : State) :
    exec (.subnReg x y) s =
      .next (s.writeFlagThenResult x (noBorrowFlag (s.getV y) (s.getV x)) (s.getV y - s.getV x)) := rfl

theorem exec_shl (x y : RegIdx) (s : State) :
    exec (.shl x y) s = .next (s.writeFlagThenResult x (highBitFlag (s.getV x)) (s.getV x <<< 1)) := rfl

theorem exec_rnd (x : RegIdx) (nn : Byte) (s : State) :
    exec (.rnd x nn) s =
      .next { s.setV x (Config.randomByte s.randomDraws &&& nn) with randomDraws := s.randomDraws + 1 } := rfl

/-! ## Flag and result -/

section written
variable (s : State) (x : RegIdx) (flag result : Byte)

theorem State.writeLogicResult_vF : (s.writeLogicResult true x result).getV vF = 0 :=
  (State.getV_writeLogicResult s true x result vF).trans (if_pos ⟨rfl, rfl⟩)

theorem State.writeLogicResult_result (h : x ≠ vF) : (s.writeLogicResult true x result).getV x = result :=
  (State.getV_writeLogicResult s true x result x).trans ((if_neg fun hx => h hx.1).trans (if_pos rfl))

theorem State.writeFlagThenResult_result : (s.writeFlagThenResult x flag result).getV x = result :=
  (State.getV_writeFlagThenResult s x flag result x).trans (if_pos rfl)

theorem State.writeFlagThenResult_vF (h : x ≠ vF) : (s.writeFlagThenResult x flag result).getV vF = flag :=
  (State.getV_writeFlagThenResult s x flag result vF).trans ((if_neg h.symm).trans (if_pos rfl))

end written

/-! ## The flags and the results as numbers -/

theorem toNat_flagByte_decide (p : Prop) [Decidable p] : (flagByte (decide p)).toNat = if p then 1 else 0 := by
  by_cases h : p <;> simp [flagByte, h]

theorem toNat_carryFlag (a b : Byte) : (carryFlag a b).toNat = if a.toNat + b.toNat > 255 then 1 else 0 :=
  toNat_flagByte_decide _

theorem toNat_noBorrowFlag (a b : Byte) : (noBorrowFlag a b).toNat = if a.toNat ≥ b.toNat then 1 else 0 :=
  toNat_flagByte_decide _

theorem toNat_lowBitFlag (a : Byte) : (lowBitFlag a).toNat = a.toNat % 2 := by
  rw [lowBitFlag, BitVec.getLsbD, Nat.testBit_zero, toNat_flagByte_decide]
  split_ifs <;> omega

theorem toNat_highBitFlag (a : Byte) : (highBitFlag a).toNat = a.toNat / 128 := by
  rw [highBitFlag, BitVec.getLsbD, Nat.testBit_eq_decide_div_mod_eq, toNat_flagByte_decide]
  split_ifs <;> omega

theorem toNat_byte_sub (a b : Byte) : (a - b).toNat = (a.toNat + 256 - b.toNat) % 256 := by
  rw [BitVec.toNat_sub]
  omega

theorem toNat_byte_shiftRight_one (a : Byte) : (a >>> 1).toNat = a.toNat / 2 := by
  rw [BitVec.toNat_ushiftRight, Nat.shiftRight_one]

theorem toNat_byte_shiftLeft_one (a : Byte) : (a <<< 1).toNat = a.toNat * 2 % 256 := by
  rw [BitVec.toNat_shiftLeft, Nat.shiftLeft_eq, pow_one]

/-! ## The frame of RND -/

/-- RND writes its register and counts its draw (R151; log 5). -/
theorem unchanged_setV_randomDraws (s : State) (x : RegIdx) (b : Byte) (k : Nat) :
    UnchangedExcept s { s.setV x b with randomDraws := k } (fun p => p = .v x ∨ p = .randomDraws) := fun p hp => by
  cases p with
  | v r => exact unchanged_setV s x b (.v r) fun h => hp (.inl h)
  | randomDraws => exact absurd (.inr rfl) hp
  | _ => rfl

/-! ## The statements -/

/-- Settles O39: the result is written first and the clear of `VF` last, so that the clear holds for every `x`. -/
theorem logicOpsClearVF : Obligations.LogicOpsClearVF := by
  unfold Obligations.LogicOpsClearVF
  refine fun x y s => ⟨⟨_, exec_orReg x y s, ?_⟩, ⟨_, exec_andReg x y s, ?_⟩, ⟨_, exec_xorReg x y s, ?_⟩⟩
  all_goals
    exact ⟨s.writeLogicResult_vF x _, s.writeLogicResult_result x _, unchanged_writeLogicResult s true x _⟩

/-- Settles O40: the flag is the carry, the result the sum of the bytes read before either is written. -/
theorem addRegSetsCarry : Obligations.AddRegSetsCarry := by
  unfold Obligations.AddRegSetsCarry
  refine fun x y s => ⟨_, exec_addReg x y s, ?_, fun hx => ?_, unchanged_writeFlagThenResult s x _ _⟩
  · rw [State.writeFlagThenResult_result, BitVec.toNat_add]
  · rw [State.writeFlagThenResult_vF _ _ _ _ hx, toNat_carryFlag]

/-- Settles O41: the flag is the absence of a borrow, the result the difference of the bytes read before either is written. -/
theorem subRegSetsNoBorrow : Obligations.SubRegSetsNoBorrow := by
  unfold Obligations.SubRegSetsNoBorrow
  refine fun x y s => ⟨_, exec_subReg x y s, ?_, fun hx => ?_, unchanged_writeFlagThenResult s x _ _⟩
  · rw [State.writeFlagThenResult_result, toNat_byte_sub]
  · rw [State.writeFlagThenResult_vF _ _ _ _ hx, toNat_noBorrowFlag]

/-- Settles O42: the flag is bit 0, the result the half; `y` does not occur. -/
theorem shrShiftsOutTheLowBit : Obligations.ShrShiftsOutTheLowBit := by
  unfold Obligations.ShrShiftsOutTheLowBit
  refine fun x y s => ⟨_, exec_shr x y s, ?_, fun hx => ?_, unchanged_writeFlagThenResult s x _ _⟩
  · rw [State.writeFlagThenResult_result, toNat_byte_shiftRight_one]
  · rw [State.writeFlagThenResult_vF _ _ _ _ hx, toNat_lowBitFlag]

/-- Settles O43: as SUB, with the operands exchanged. -/
theorem subnRegSetsNoBorrow : Obligations.SubnRegSetsNoBorrow := by
  unfold Obligations.SubnRegSetsNoBorrow
  refine fun x y s => ⟨_, exec_subnReg x y s, ?_, fun hx => ?_, unchanged_writeFlagThenResult s x _ _⟩
  · rw [State.writeFlagThenResult_result, toNat_byte_sub]
  · rw [State.writeFlagThenResult_vF _ _ _ _ hx, toNat_noBorrowFlag]

/-- Settles O44: the flag is bit 7, the result the double modulo 256; `y` does not occur. -/
theorem shlShiftsOutTheHighBit : Obligations.ShlShiftsOutTheHighBit := by
  unfold Obligations.ShlShiftsOutTheHighBit
  refine fun x y s => ⟨_, exec_shl x y s, ?_, fun hx => ?_, unchanged_writeFlagThenResult s x _ _⟩
  · rw [State.writeFlagThenResult_result, toNat_byte_shiftLeft_one]
  · rw [State.writeFlagThenResult_vF _ _ _ _ hx, toNat_highBitFlag]

/-- Settles O46: the byte written is the drawn byte under the mask, bit by bit. -/
theorem rndMasksOneDraw : Obligations.RndMasksOneDraw := by
  unfold Obligations.RndMasksOneDraw
  refine fun x nn s => ⟨_, exec_rnd x nn s, fun b _ => ?_, rfl, unchanged_setV_randomDraws s x _ _⟩
  have written : ({ s.setV x (Config.randomByte s.randomDraws &&& nn) with randomDraws := s.randomDraws + 1 } : State).getV x =
      Config.randomByte s.randomDraws &&& nn := s.getV_setV_self x _
  rw [written, BitVec.getLsbD_and]

end Sys2Proof.Machine
end

section
/-! PROOFS. The instructions on memory and the framebuffer (43_sprite_draw.md, 45_timers_memory.md section 3): what they answer when their
range fits and when it passes 0xFFF, the bytes and cells they leave, and the statements about them. -/

namespace Sys2Proof.Machine

/-! ## What the instructions answer, by the range check (R55) -/

section answers
variable (x y : RegIdx) (n : Nibble) (s : State)

theorem exec_drw_of_fits (h : n.toNat = 0 ∨ s.i.toNat + n.toNat - 1 ≤ 0xFFF) :
    exec (.drw x y n) s = .next (s.drawSprite x y n.toNat) := by
  by_cases hn : n = 0
  · subst hn
    rfl
  · have fits : s.i.toNat + n.toNat - 1 ≤ 0xFFF := h.resolve_left fun h0 => hn (BitVec.eq_of_toNat_eq h0)
    exact (if_neg hn).trans (congrArg _ (s.guardRange_fits n.toNat _ fits))

theorem exec_drw_of_past (h1 : 1 ≤ n.toNat) (h : 0xFFF < s.i.toNat + n.toNat - 1) :
    exec (.drw x y n) s = .next (s.raise .memoryOutOfBounds s.i) := by
  have hn : n ≠ 0 := by
    rintro rfl
    exact absurd h1 (by decide)
  exact (if_neg hn).trans (congrArg _ (s.guardRange_past n.toNat _ h))

theorem exec_ldB_of_fits (h : s.i.toNat + 2 ≤ 0xFFF) :
    exec (.ldB x) s = .next (s.storeBytes s.i.toNat (decimalDigits (s.getV x))) :=
  congrArg _ (s.guardRange_fits 3 _ h)

theorem exec_ldB_of_past (h : 0xFFF < s.i.toNat + 2) : exec (.ldB x) s = .next (s.raise .memoryOutOfBounds s.i) :=
  congrArg _ (s.guardRange_past 3 _ h)

theorem exec_stRegs_of_fits (h : s.i.toNat + x.toNat ≤ 0xFFF) :
    exec (.stRegs x) s =
      .next ((s.storeBytes s.i.toNat (s.registersUpTo x)).setI (BitVec.ofNat 16 (s.i.toNat + x.toNat + 1))) :=
  congrArg _ (s.guardRange_fits (x.toNat + 1) _ h)

theorem exec_stRegs_of_past (h : 0xFFF < s.i.toNat + x.toNat) :
    exec (.stRegs x) s = .next (s.raise .memoryOutOfBounds s.i) :=
  congrArg _ (s.guardRange_past (x.toNat + 1) _ h)

theorem exec_ldRegs_of_fits (h : s.i.toNat + x.toNat ≤ 0xFFF) :
    exec (.ldRegs x) s =
      .next ((s.loadRegisters s.i.toNat (x.toNat + 1)).setI (BitVec.ofNat 16 (s.i.toNat + x.toNat + 1))) :=
  congrArg _ (s.guardRange_fits (x.toNat + 1) _ h)

theorem exec_ldRegs_of_past (h : 0xFFF < s.i.toNat + x.toNat) :
    exec (.ldRegs x) s = .next (s.raise .memoryOutOfBounds s.i) :=
  congrArg _ (s.guardRange_past (x.toNat + 1) _ h)

end answers

/-! ## The bytes of a block -/

/-- The `j`-th byte of a stored block is read back at `base + j` (R53). -/
theorem State.readByte_storeBytes (s : State) (base : Nat) (bs : List Byte) (h : base + bs.length ≤ 4096) {j : Nat}
    (hj : j < bs.length) : (s.storeBytes base bs).mem.readByte (BitVec.ofNat 12 (base + j)) = bs.getD j 0 := by
  have address : (BitVec.ofNat 12 (base + j)).toNat = base + j := by
    rw [BitVec.toNat_ofNat]
    exact Nat.mod_eq_of_lt (by omega)
  rw [State.storeBytes_mem, Memory.readByte_writeBytes _ _ _ h, if_pos (by omega), address, Nat.add_sub_cancel_left]

/-- Past a block inside memory `I` is at most 0x1000, so 16 bits hold it (R186, R187). -/
theorem toNat_index_past_block (i : Word) (x : RegIdx) (h : i.toNat + x.toNat ≤ 0xFFF) :
    (BitVec.ofNat 16 (i.toNat + x.toNat + 1)).toNat = i.toNat + x.toNat + 1 := by
  rw [BitVec.toNat_ofNat]
  exact Nat.mod_eq_of_lt (by omega)

/-- What LD B, Vx writes (R185). -/
theorem unchanged_storeDigits (s : State) (v : Byte) (h : s.i.toNat + 2 ≤ 0xFFF) :
    UnchangedExcept s (s.storeBytes s.i.toNat (decimalDigits v))
      (fun p => ∃ a : Addr, p = .byte a ∧ s.i.toNat ≤ a.toNat ∧ a.toNat ≤ s.i.toNat + 2) :=
  (unchanged_storeBytes s _ (decimalDigits v) (by simp [decimalDigits]; omega)).mono
    fun _ ⟨a, hp, low, high⟩ => ⟨a, hp, low, Nat.lt_succ_iff.1 high⟩

/-- What LD [I], Vx writes (R186). -/
theorem unchanged_storeRegisters (s : State) (x : RegIdx) (a : Word) (h : s.i.toNat + x.toNat ≤ 0xFFF) :
    UnchangedExcept s ((s.storeBytes s.i.toNat (s.registersUpTo x)).setI a)
      (fun p => p = .i ∨ ∃ a : Addr, p = .byte a ∧ s.i.toNat ≤ a.toNat ∧ a.toNat ≤ s.i.toNat + x.toNat) := by
  have stored := unchanged_storeBytes s s.i.toNat (s.registersUpTo x) (by simp; omega)
  rw [length_registersUpTo] at stored
  exact (stored.mono fun _ ⟨a, hp, low, high⟩ => .inr ⟨a, hp, low, Nat.lt_succ_iff.1 high⟩).trans
    ((unchanged_setI _ a).mono fun _ => .inl)

/-- What LD Vx, [I] writes (R187). -/
theorem unchanged_loadRegisters_setI (s : State) (x : RegIdx) (a : Word) :
    UnchangedExcept s ((s.loadRegisters s.i.toNat (x.toNat + 1)).setI a)
      (fun p => p = .i ∨ ∃ r : RegIdx, p = .v r ∧ r.toNat ≤ x.toNat) :=
  ((unchanged_loadRegisters s _ _ (by omega)).mono fun _ ⟨r, hp, hr⟩ => .inr ⟨r, hp, Nat.lt_succ_iff.1 hr⟩).trans
    ((unchanged_setI _ a).mono fun _ => .inl)

/-! ## The cells of a sprite -/

section sprite
variable (s : State) (x y : RegIdx) (n : Nat)

/-- The cells of the statement are those the blitter flips. -/
theorem State.spriteLights_iff_mem (px : Fin 64) (py : Fin 32) :
    s.spriteLights x y n px py ↔
      (px, py) ∈ spriteCells (s.getV x).toNat (s.getV y).toNat (s.mem.readBytes s.i.toNat n) := by
  simp only [mem_spriteCells, Memory.getElem_readBytes, Memory.length_readBytes, exists_prop]
  rfl

theorem State.drawSprite_pixel_lit (hn : n ≤ 32) {px : Fin 64} {py : Fin 32} (h : s.spriteLights x y n px py) :
    (s.drawSprite x y n).fb.pixel px py = !s.fb.pixel px py :=
  (drawRows_spec _ _ _ (by simpa using hn) _ px py).1.trans (if_pos ((s.spriteLights_iff_mem x y n px py).1 h))

theorem State.drawSprite_pixel_dark (hn : n ≤ 32) {px : Fin 64} {py : Fin 32} (h : ¬ s.spriteLights x y n px py) :
    (s.drawSprite x y n).fb.pixel px py = s.fb.pixel px py :=
  (drawRows_spec _ _ _ (by simpa using hn) _ px py).1.trans (if_neg (mt (s.spriteLights_iff_mem x y n px py).2 h))

/-- `VF` is 1 exactly when the sprite meets a lit cell, and 0 otherwise (R161). -/
theorem State.drawSprite_vF [Decidable (∃ px py, s.spriteLights x y n px py ∧ s.fb.pixel px py = true)] (hn : n ≤ 32) :
    (s.drawSprite x y n).getV vF = if ∃ px py, s.spriteLights x y n px py ∧ s.fb.pixel px py = true then 1 else 0 := by
  have collision := (drawRows_spec (s.getV x).toNat (s.getV y).toNat (s.mem.readBytes s.i.toNat n) (by simpa using hn)
    { fb := s.fb, collision := false } 0 0).2
  simp only [Bool.false_eq_true, false_or, Prod.exists, ← s.spriteLights_iff_mem x y n] at collision
  rw [State.drawSprite, State.getV_setV_self, flagByte]
  exact if_congr collision rfl rfl

end sprite

/-! ## The statements -/

/-- Settles O47: the blitter flips each cell under a set bit once, and its collision is the meeting with a lit cell. -/
theorem drawXorsTheSpriteCells : Obligations.DrawXorsTheSpriteCells := by
  unfold Obligations.DrawXorsTheSpriteCells
  intro x y n s fits
  have rows : n.toNat ≤ 32 := by omega
  refine ⟨_, exec_drw_of_fits x y n s fits, fun _ _ => s.drawSprite_pixel_lit x y _ rows,
    fun _ _ => s.drawSprite_pixel_dark x y _ rows, fun met => ?_, fun unmet => ?_, unchanged_drawSprite s x y _⟩
  all_goals classical rw [s.drawSprite_vF x y _ rows]
  · exact if_pos met
  · exact if_neg fun ⟨px, py, lights, lit⟩ => Bool.false_ne_true ((unmet px py lights).symm.trans lit)

/-- Settles O48: the range check comes before the draw. -/
theorem drawPastMemoryHalts : Obligations.DrawPastMemoryHalts := by
  unfold Obligations.DrawPastMemoryHalts
  exact fun x y n s rows past => ⟨_, exec_drw_of_past x y n s rows past, s.raise_status _ _, unchanged_raise s _ _⟩

/-- Settles O56: the three digits are stored from `I` on, or the range check raises. -/
theorem bcdStoresThreeDigits : Obligations.BcdStoresThreeDigits := by
  unfold Obligations.BcdStoresThreeDigits
  refine fun x s => ⟨fun fits => ?_, fun past => ?_⟩
  · have digit (j : Nat) (hj : j < 3) : (s.storeBytes s.i.toNat (decimalDigits (s.getV x))).mem.readByte (s.dataAddr j) =
        (decimalDigits (s.getV x)).getD j 0 :=
      s.readByte_storeBytes _ (decimalDigits (s.getV x)) (by simp [decimalDigits]; omega) hj
    refine ⟨_, exec_ldB_of_fits x s fits, ?_, ?_, ?_, unchanged_storeDigits s _ fits⟩
    · rw [digit 0 (by decide)]
      exact Nat.mod_eq_of_lt (by omega)
    · rw [digit 1 (by decide)]
      exact Nat.mod_eq_of_lt (by omega)
    · rw [digit 2 (by decide)]
      exact Nat.mod_eq_of_lt (by omega)
  · exact ⟨_, exec_ldB_of_past x s past, s.raise_status _ _, unchanged_raise s _ _⟩

/-- Settles O57: the block of registers is stored from `I` on, or the range check raises. -/
theorem storeRegistersWritesTheBlock : Obligations.StoreRegistersWritesTheBlock := by
  unfold Obligations.StoreRegistersWritesTheBlock
  refine fun x s => ⟨fun fits => ?_, fun past => ?_⟩
  · refine ⟨_, exec_stRegs_of_fits x s fits, fun r hr => ?_, toNat_index_past_block s.i x fits,
      unchanged_storeRegisters s x _ fits⟩
    calc (s.storeBytes s.i.toNat (s.registersUpTo x)).mem.readByte (s.dataAddr r.toNat)
        = (s.registersUpTo x).getD r.toNat 0 := s.readByte_storeBytes _ _ (by simp; omega) (by simp; omega)
      _ = s.getV r := by rw [getD_registersUpTo s x _ hr, BitVec.ofNat_toNat, BitVec.setWidth_eq]
  · exact ⟨_, exec_stRegs_of_past x s past, s.raise_status _ _, unchanged_raise s _ _⟩

/-- Settles O58: the registers are loaded from `I` on, or the range check raises. -/
theorem loadRegistersReadsTheBlock : Obligations.LoadRegistersReadsTheBlock := by
  unfold Obligations.LoadRegistersReadsTheBlock
  refine fun x s => ⟨fun fits => ?_, fun past => ?_⟩
  · refine ⟨_, exec_ldRegs_of_fits x s fits, fun r hr => ?_, toNat_index_past_block s.i x fits,
      unchanged_loadRegisters_setI s x _⟩
    exact (s.getV_loadRegisters _ _ (by omega) r).trans (if_pos (Nat.lt_succ_iff.2 hr))
  · exact ⟨_, exec_ldRegs_of_past x s past, s.raise_status _ _, unchanged_raise s _ _⟩

end Sys2Proof.Machine
end

section
/-! PROOFS. The remaining instructions: SYS, the skips on registers and on keys, `Fx0A`, the sound timer and ADD I, what they answer, and
the statements about them. -/

namespace Sys2Proof.Machine

/-! ## What the instructions answer -/

section answers
variable (x y : RegIdx) (s : State)

theorem exec_sys (nnn : Addr) : exec (.sys nnn) s = .next (s.emit (.ignoredMachineCall (zextAddr nnn))) := rfl

theorem exec_seReg : exec (.seReg x y) s = .next (s.skipIf (s.getV x == s.getV y)) := rfl

theorem exec_sneReg : exec (.sneReg x y) s = .next (s.skipIf (s.getV x != s.getV y)) := rfl

theorem exec_ldK :
    exec (.ldK x) s = .next { s with keyEdge := Vector.replicate 16 false, status := .waitingForKey x } := rfl

theorem exec_ldST : exec (.ldST x) s = .next { s with st := s.getV x } := rfl

theorem exec_addI : exec (.addI x) s = .next (s.setI (s.i + zextByte (s.getV x))) := rfl

theorem exec_skp_of_key (k : Key) (h : k.val = (s.getV x).toNat) :
    exec (.skp x) s = .next (s.skipIf (s.keyHeld[k.val] == true)) := by
  change execSkp x s = _
  rw [execSkp, s.keyNamed_of_val x k h]

theorem exec_skp_of_past (h : 15 < (s.getV x).toNat) :
    exec (.skp x) s = .next (s.raise .keyIndexOutOfRange (zextByte (s.getV x))) := by
  change execSkp x s = _
  rw [execSkp, s.keyNamed_none x h]

theorem exec_sknp_of_key (k : Key) (h : k.val = (s.getV x).toNat) :
    exec (.sknp x) s = .next (s.skipIf (s.keyHeld[k.val] == false)) := by
  change execSknp x s = _
  rw [execSknp, s.keyNamed_of_val x k h]

theorem exec_sknp_of_past (h : 15 < (s.getV x).toNat) :
    exec (.sknp x) s = .next (s.raise .keyIndexOutOfRange (zextByte (s.getV x))) := by
  change execSknp x s = _
  rw [execSknp, s.keyNamed_none x h]

end answers

/-! ## The updates -/

theorem unchanged_of_st (s : State) (b : Byte) : UnchangedExcept s { s with st := b } (fun p => p = .st) := fun p hp => by
  cases p with
  | st => exact absurd rfl hp
  | _ => rfl

/-- `Fx0A` writes the status and the latch (R200). -/
theorem unchanged_of_status_keyEdge (s : State) (edge : Vector Bool 16) (st : Status) :
    UnchangedExcept s { s with keyEdge := edge, status := st } (fun p => p = .status ∨ ∃ k, p = .keyEdge k) := fun p hp => by
  cases p with
  | status => exact absurd (.inl rfl) hp
  | keyEdge k => exact absurd (.inr ⟨k, rfl⟩) hp
  | _ => rfl

/-- The word a SYS reports, rebuilt from its operand (log 19). -/
theorem encode_sys (nnn : Addr) : encode (.sys nnn) = zextAddr nnn := by
  refine BitVec.eq_of_toNat_eq ?_
  rw [toNat_zextAddr, encode, wordNnn, BitVec.toNat_append]
  simp

/-! ## The statements -/

/-- Settles O26: SYS is what is left of family 0, and its meaning is one report. -/
theorem sysIsReportedAndIgnored : Obligations.SysIsReportedAndIgnored := by
  unfold Obligations.SysIsReportedAndIgnored
  refine ⟨fun w hop not_cls not_ret => ⟨decode_op0_of_ne hop not_cls not_ret, wordNnn_of_op hop⟩, fun nnn s => ?_⟩
  refine ⟨_, exec_sys s nnn, ?_, unchanged_emit s _⟩
  rw [State.emit_output, encode_sys]

/-- Settles O34: the skip's test is the equality of the registers, and family 5 rejects every `n` but 0. -/
theorem seRegSkipsIfEqual : Obligations.SeRegSkipsIfEqual := by
  unfold Obligations.SeRegSkipsIfEqual
  refine ⟨fun x y s => ⟨_, exec_seReg x y s, s.skipIf_pc_of_iff beq_iff_eq, unchanged_skipIf s _⟩, fun w hop hn => ?_⟩
  exact (decode_op5 hop).trans (if_neg hn)

/-- Settles O35: the skip's test is the difference of the registers, and family 9 rejects every `n` but 0. -/
theorem sneRegSkipsIfDifferent : Obligations.SneRegSkipsIfDifferent := by
  unfold Obligations.SneRegSkipsIfDifferent
  refine ⟨fun x y s => ⟨_, exec_sneReg x y s, s.skipIf_pc_of_iff bne_iff_ne, unchanged_skipIf s _⟩, fun w hop hn => ?_⟩
  exact (decode_op9 hop).trans (if_neg hn)

/-- Settles O49: an index up to 15 names a key, whose level is the skip's test; a larger one raises. -/
theorem skpSkipsIfHeld : Obligations.SkpSkipsIfHeld := by
  unfold Obligations.SkpSkipsIfHeld
  refine fun x s => ⟨fun k hk => ?_, fun past => ?_⟩
  · exact ⟨_, exec_skp_of_key x s k hk, s.skipIf_pc_of_iff beq_iff_eq, unchanged_skipIf s _⟩
  · exact ⟨_, _, exec_skp_of_past x s past, s.raise_status _ _, toNat_zextByte _, unchanged_raise s _ _⟩

/-- Settles O50: as SKP, with the test negated. -/
theorem sknpSkipsIfNotHeld : Obligations.SknpSkipsIfNotHeld := by
  unfold Obligations.SknpSkipsIfNotHeld
  refine fun x s => ⟨fun k hk => ?_, fun past => ?_⟩
  · exact ⟨_, exec_sknp_of_key x s k hk, s.skipIf_pc_of_iff beq_iff_eq, unchanged_skipIf s _⟩
  · exact ⟨_, _, exec_sknp_of_past x s past, s.raise_status _ _, toNat_zextByte _, unchanged_raise s _ _⟩

/-- Settles O23: the new latch is the all-false one. -/
theorem keyWaitBegins : Obligations.KeyWaitBegins := by
  unfold Obligations.KeyWaitBegins
  exact fun x s => ⟨_, exec_ldK x s, rfl, fun _ => Vector.getElem_replicate _, unchanged_of_status_keyEdge s _ _⟩

/-- Settles O53: the instruction is one write of `ST`. -/
theorem ldSTWritesTheSoundTimer : Obligations.LdSTWritesTheSoundTimer := by
  unfold Obligations.LdSTWritesTheSoundTimer
  exact fun x s => ⟨_, exec_ldST x s, rfl, unchanged_of_st s _⟩

/-- Settles O54: the instruction is one write of `I`, and the sum of two words wraps modulo 2^16. -/
theorem addIWrapsAtSixteenBits : Obligations.AddIWrapsAtSixteenBits := by
  unfold Obligations.AddIWrapsAtSixteenBits
  refine fun x s => ⟨_, exec_addI x s, ?_, unchanged_setI s _⟩
  rw [State.setI_i, BitVec.toNat_add, toNat_zextByte]

end Sys2Proof.Machine
end

section
/-! PROOFS. All 35 instructions at once: each completes and writes only what the spec lists (10_state.md sections 2 to 8), and what a halt
by an instruction means (60_exceptions.md R212). -/

namespace Sys2Proof.Machine

/-! ## Completion and the listed writers -/

/-- A frame of one part, for an instruction that is listed as a writer of that part. -/
theorem UnchangedExcept.mono_listed {s t : State} {i : Instr} {q : Part} (h : UnchangedExcept s t (fun p => p = q))
    (hq : listedWriter q i) : UnchangedExcept s t (fun p => listedWriter p i) :=
  h.mono fun _ hp => hp ▸ hq

/-- An instruction answers a next state, in which only the parts changed that list it as a writer. -/
theorem exec_writes_listed (i : Instr) (s : State) :
    ∃ t, exec i s = .next t ∧ UnchangedExcept s t (fun p => listedWriter p i) := by
  cases i with
  | sys nnn => exact ⟨_, exec_sys s nnn, (unchanged_emit s _).mono_listed ⟨nnn, rfl⟩⟩
  | cls => exact ⟨_, exec_cls s, (unchanged_of_fb s _).mono (by rintro _ ⟨px, py, rfl⟩; exact .inl rfl)⟩
  | ret =>
    by_cases empty : s.sp.val = 0
    · exact ⟨_, exec_ret_of_empty s empty, (unchanged_raise s _ _).mono_listed (by simp [listedWriter])⟩
    · exact ⟨_, exec_ret_of_pos s (Nat.pos_of_ne_zero empty),
        (unchanged_pop s).mono (by rintro _ (rfl | rfl) <;> simp [listedWriter])⟩
  | jp nnn => exact ⟨_, exec_jp nnn s, (unchanged_setPc s _).mono_listed (by simp [listedWriter])⟩
  | call nnn =>
    by_cases room : s.sp.val < 16
    · exact ⟨_, exec_call_of_lt nnn s room,
        (unchanged_push_setPc s room _).mono (by rintro _ (rfl | rfl | ⟨j, rfl, _⟩) <;> simp [listedWriter])⟩
    · exact ⟨_, exec_call_of_full nnn s (by omega), (unchanged_raise s _ _).mono_listed (by simp [listedWriter])⟩
  | jpV0 nnn => exact ⟨_, exec_jpV0 nnn s, (unchanged_setPc s _).mono_listed (by simp [listedWriter])⟩
  | seImm x nn | sneImm x nn | seReg x y | sneReg x y =>
    exact ⟨_, rfl, (unchanged_skipIf s _).mono_listed (by simp [listedWriter])⟩
  | ldImm x nn | addImm x nn | ldReg x y | ldFromDT x =>
    exact ⟨_, rfl, (unchanged_setV s x _).mono_listed rfl⟩
  | orReg x y | andReg x y | xorReg x y =>
    exact ⟨_, rfl, (unchanged_writeLogicResult s true x _).mono (by rintro _ (rfl | rfl) <;> simp [listedWriter, writesRegister])⟩
  | addReg x y | subReg x y | shr x y | subnReg x y | shl x y =>
    exact ⟨_, rfl, (unchanged_writeFlagThenResult s x _ _).mono (by rintro _ (rfl | rfl) <;> simp [listedWriter, writesRegister])⟩
  | ldI nnn | addI x | ldF x => exact ⟨_, rfl, (unchanged_setI s _).mono_listed (by simp [listedWriter])⟩
  | rnd x nn =>
    exact ⟨_, exec_rnd x nn s,
      (unchanged_setV_randomDraws s x _ _).mono (by rintro _ (rfl | rfl) <;> simp [listedWriter, writesRegister])⟩
  | drw x y n =>
    by_cases fits : n.toNat = 0 ∨ s.i.toNat + n.toNat - 1 ≤ 0xFFF
    · exact ⟨_, exec_drw_of_fits x y n s fits,
        (unchanged_drawSprite s x y _).mono (by rintro _ (rfl | ⟨px, py, rfl⟩) <;> simp [listedWriter, writesRegister])⟩
    · exact ⟨_, exec_drw_of_past x y n s (by omega) (by omega),
        (unchanged_raise s _ _).mono_listed (by simp [listedWriter])⟩
  | skp x =>
    by_cases key : (s.getV x).toNat < 16
    · exact ⟨_, exec_skp_of_key x s ⟨_, key⟩ rfl, (unchanged_skipIf s _).mono_listed (by simp [listedWriter])⟩
    · exact ⟨_, exec_skp_of_past x s (by omega), (unchanged_raise s _ _).mono_listed (by simp [listedWriter])⟩
  | sknp x =>
    by_cases key : (s.getV x).toNat < 16
    · exact ⟨_, exec_sknp_of_key x s ⟨_, key⟩ rfl, (unchanged_skipIf s _).mono_listed (by simp [listedWriter])⟩
    · exact ⟨_, exec_sknp_of_past x s (by omega), (unchanged_raise s _ _).mono_listed (by simp [listedWriter])⟩
  | ldK x =>
    exact ⟨_, exec_ldK x s,
      (unchanged_of_status_keyEdge s _ _).mono (by rintro _ (rfl | ⟨k, rfl⟩) <;> simp [listedWriter])⟩
  | ldDT x => exact ⟨_, exec_ldDT x s, (unchanged_of_dt s _).mono_listed ⟨x, rfl⟩⟩
  | ldST x => exact ⟨_, exec_ldST x s, (unchanged_of_st s _).mono_listed ⟨x, rfl⟩⟩
  | ldB x =>
    by_cases fits : s.i.toNat + 2 ≤ 0xFFF
    · exact ⟨_, exec_ldB_of_fits x s fits,
        (unchanged_storeDigits s _ fits).mono (by rintro _ ⟨a, rfl, _, _⟩; simp [listedWriter])⟩
    · exact ⟨_, exec_ldB_of_past x s (by omega), (unchanged_raise s _ _).mono_listed (by simp [listedWriter])⟩
  | stRegs x =>
    by_cases fits : s.i.toNat + x.toNat ≤ 0xFFF
    · exact ⟨_, exec_stRegs_of_fits x s fits,
        (unchanged_storeRegisters s x _ fits).mono (by rintro _ (rfl | ⟨a, rfl, _, _⟩) <;> simp [listedWriter])⟩
    · exact ⟨_, exec_stRegs_of_past x s (by omega), (unchanged_raise s _ _).mono_listed (by simp [listedWriter])⟩
  | ldRegs x =>
    by_cases fits : s.i.toNat + x.toNat ≤ 0xFFF
    · exact ⟨_, exec_ldRegs_of_fits x s fits,
        (unchanged_loadRegisters_setI s x _).mono
          (by rintro _ (rfl | ⟨r, rfl, hr⟩) <;> simp [listedWriter, writesRegister, *])⟩
    · exact ⟨_, exec_ldRegs_of_past x s (by omega), (unchanged_raise s _ _).mono_listed (by simp [listedWriter])⟩

/-- The frame of an instruction: the parts that do not list it as a writer. -/
theorem exec_frame {i : Instr} {s t : State} (h : exec i s = .next t) : UnchangedExcept s t (fun p => listedWriter p i) := by
  obtain ⟨u, hu, frame⟩ := exec_writes_listed i s
  cases hu.symm.trans h
  exact frame

/-- Settles O14: a part outside the instruction's frame reads the same. -/
theorem onlyListedWritersWrite : Obligations.OnlyListedWritersWrite := by
  unfold Obligations.OnlyListedWritersWrite
  exact fun i s t p h changed => by_contra fun unlisted => changed (exec_frame h p unlisted)

/-! ## The fatal conditions an instruction raises -/

/-- Settles O12: only the listed writers of the status can halt, and each of them keeps the status on the other side of its check. -/
theorem instructionsHaltOnlyForListedCauses : Obligations.InstructionsHaltOnlyForListedCauses := by
  unfold Obligations.InstructionsHaltOnlyForListedCauses
  intro i s t f info running h halted
  have changed : t.status ≠ s.status := fun kept => Status.noConfusion (running.symm.trans (kept.symm.trans halted))
  have not_kept (u : State) (hu : exec i s = .next u) : u.status ≠ s.status := by
    cases hu.symm.trans h
    exact changed
  have raised (f' : FatalCondition) (info' : Word) (hu : exec i s = .next (s.raise f' info')) : f' = f ∧ info' = info := by
    cases hu.symm.trans h
    exact Status.halted.inj halted
  have writer : listedWriter .status i := by_contra fun unlisted => changed (exec_frame h .status unlisted)
  obtain ⟨nnn, rfl⟩ | rfl | ⟨x, y, n, rfl⟩ | ⟨x, rfl | rfl | rfl | rfl | rfl | rfl⟩ := writer
  · have full : s.sp.val = 16 := by_contra fun room => not_kept _ (exec_call_of_lt nnn s (by omega)) rfl
    obtain ⟨rfl, rfl⟩ := raised _ _ (exec_call_of_full nnn s full)
    exact .inl ⟨rfl, rfl, rfl, ⟨nnn, rfl⟩, full⟩
  · have empty : s.sp.val = 0 := by_contra fun entry => not_kept _ (exec_ret_of_pos s (by omega)) rfl
    obtain ⟨rfl, rfl⟩ := raised _ _ (exec_ret_of_empty s empty)
    exact .inr (.inl ⟨rfl, rfl, rfl, rfl, empty⟩)
  · have past : ¬ (n.toNat = 0 ∨ s.i.toNat + n.toNat - 1 ≤ 0xFFF) := fun fits =>
      not_kept _ (exec_drw_of_fits x y n s fits) rfl
    obtain ⟨rfl, rfl⟩ := raised _ _ (exec_drw_of_past x y n s (by omega) (by omega))
    exact .inr (.inr (.inl ⟨rfl, rfl, rfl, .inl ⟨x, y, n, rfl, by omega, by omega⟩⟩))
  · have past : 15 < (s.getV x).toNat := by_contra fun key =>
      not_kept _ (exec_skp_of_key x s ⟨(s.getV x).toNat, by omega⟩ rfl) (by rw [State.skipIf_eq, State.setPc_status])
    obtain ⟨rfl, rfl⟩ := raised _ _ (exec_skp_of_past x s past)
    exact .inr (.inr (.inr ⟨rfl, rfl, x, .inl rfl, past, toNat_zextByte _⟩))
  · have past : 15 < (s.getV x).toNat := by_contra fun key =>
      not_kept _ (exec_sknp_of_key x s ⟨(s.getV x).toNat, by omega⟩ rfl) (by rw [State.skipIf_eq, State.setPc_status])
    obtain ⟨rfl, rfl⟩ := raised _ _ (exec_sknp_of_past x s past)
    exact .inr (.inr (.inr ⟨rfl, rfl, x, .inr rfl, past, toNat_zextByte _⟩))
  · cases (exec_ldK x s).symm.trans h
    exact Status.noConfusion halted
  · have past : 0xFFF < s.i.toNat + 2 := by_contra fun fits => not_kept _ (exec_ldB_of_fits x s (by omega)) rfl
    obtain ⟨rfl, rfl⟩ := raised _ _ (exec_ldB_of_past x s past)
    exact .inr (.inr (.inl ⟨rfl, rfl, rfl, .inr (.inl ⟨x, rfl, past⟩)⟩))
  · have past : 0xFFF < s.i.toNat + x.toNat := by_contra fun fits => not_kept _ (exec_stRegs_of_fits x s (by omega)) rfl
    obtain ⟨rfl, rfl⟩ := raised _ _ (exec_stRegs_of_past x s past)
    exact .inr (.inr (.inl ⟨rfl, rfl, rfl, .inr (.inr ⟨x, .inl rfl, past⟩)⟩))
  · have past : 0xFFF < s.i.toNat + x.toNat := by_contra fun fits =>
      not_kept _ (exec_ldRegs_of_fits x s (by omega)) (s.loadRegisters_status _ _)
    obtain ⟨rfl, rfl⟩ := raised _ _ (exec_ldRegs_of_past x s past)
    exact .inr (.inr (.inl ⟨rfl, rfl, rfl, .inr (.inr ⟨x, .inr rfl, past⟩)⟩))

end Sys2Proof.Machine
end

section
/-! PROOFS. The engine cycle (30_encoding.md section 5, 60_exceptions.md): what a step of a running, waiting or halted engine answers, that
every step completes, the transitions of the status, and the statements about them. -/

namespace Sys2Proof.Machine

/-! ## What a step answers -/

section steps
variable {s : State}

theorem step_of_transaction {tr : Transaction} (h : s.nextTransaction = tr) : step s = perform tr s.beginTransaction := by
  rw [step, h]

theorem step_of_halted {f : FatalCondition} {info : Word} (h : s.nextTransaction = .cycle) (hs : s.status = .halted f info) :
    step s = .next s.beginTransaction := by
  rw [step_of_transaction h, perform, cycle, State.beginTransaction_status, hs]

theorem step_of_waiting {r : RegIdx} (h : s.nextTransaction = .cycle) (hs : s.status = .waitingForKey r) :
    step s = .next (keyWaitPoll r s.beginTransaction) := by
  rw [step_of_transaction h, perform, cycle, State.beginTransaction_status, hs]

theorem step_of_fetch_past (h : s.nextTransaction = .cycle) (hs : s.status = .running) (past : 4094 < s.pc.toNat) :
    step s = .next (s.beginTransaction.raise .fetchOutOfBounds s.pc) := by
  rw [step_running h hs, fetchDecodeExecute]
  exact if_pos past

theorem not_past_fetchLimit (fits : s.pc.toNat ≤ 4094) : ¬ s.beginTransaction.pc.toNat > fetchLimit := Nat.not_lt.2 fits

theorem step_of_instr {i : Instr} (h : s.nextTransaction = .cycle) (hs : s.status = .running) (fits : s.pc.toNat ≤ 4094)
    (hi : decode s.fetchWord = .instr i) : step s = exec i s.beginTransaction.advancePc := by
  rw [step_running h hs, fetchDecodeExecute, if_neg (not_past_fetchLimit fits), fetchWord_beginTransaction, hi]

theorem step_of_unknown {w : Word} (h : s.nextTransaction = .cycle) (hs : s.status = .running) (fits : s.pc.toNat ≤ 4094)
    (hw : decode s.fetchWord = .unknown w) : step s = .next (s.beginTransaction.advancePc.emit (.unknownOpcode w)) := by
  rw [step_running h hs, fetchDecodeExecute, if_neg (not_past_fetchLimit fits), fetchWord_beginTransaction, hw]
  rfl

end steps

/-- The bookkeeping around a transaction adds the output and the schedule to what it writes (log 2, log 4). -/
theorem UnchangedExcept.of_beginTransaction {s t : State} {w : Part → Prop} (h : UnchangedExcept s.beginTransaction t w) :
    UnchangedExcept s t (fun p => w p ∨ p = .output ∨ p = .schedule) :=
  ((unchanged_beginTransaction s).mono fun _ => .inr).trans (h.mono fun _ => .inl)

/-- A rejection carries the word itself (R79). -/
theorem unknown_word_eq {w w' : Word} (h : decode w = .unknown w') : w' = w := ((unknownWordsAreThoseListed w w').1 h).1

/-! ## The cycle -/

/-- Settles O6: the two bytes at `PC` make the fetched word. -/
theorem stepRunsTheDecodedInstruction : Obligations.StepRunsTheDecodedInstruction := by
  unfold Obligations.StepRunsTheDecodedInstruction
  intro s w i next running fits hw hi
  have fetched : w = s.fetchWord := BitVec.eq_of_toNat_eq (hw.trans (toNat_wordOfBytes _ _).symm)
  exact step_of_instr next running fits (fetched ▸ hi)

/-- Settles O7: the word is reported after the advance of `PC`. -/
theorem unknownWordIsReportedAndSkipped : Obligations.UnknownWordIsReportedAndSkipped := by
  unfold Obligations.UnknownWordIsReportedAndSkipped
  refine ⟨fun s w next running fits hw => ?_, fun s w => ⟨_, rfl, s.raise_status _ _, unchanged_raise s _ _⟩⟩
  have frame : UnchangedExcept s (s.beginTransaction.advancePc.emit (.unknownOpcode w))
      (fun p => p = .pc ∨ p = .output ∨ p = .schedule) :=
    (unchanged_setPc _ _).of_beginTransaction.trans ((unchanged_emit _ _).mono fun _ h => .inr (.inl h))
  exact ⟨_, step_of_unknown next running fits hw, rfl, by rw [State.emit_output, unknown_word_eq hw], rfl, frame⟩

/-- Settles O8: the fetch bound is checked before `PC` is advanced. -/
theorem fetchPastMemoryHalts : Obligations.FetchPastMemoryHalts := by
  unfold Obligations.FetchPastMemoryHalts
  exact fun s next running past =>
    ⟨_, step_of_fetch_past next running past, rfl, rfl, rfl, (unchanged_raise _ _ _).of_beginTransaction⟩

/-- Settles O9: the cycle of a halted engine leaves the state that the transaction began with. -/
theorem haltedCycleDoesNothing : Obligations.HaltedCycleDoesNothing := by
  unfold Obligations.HaltedCycleDoesNothing
  exact fun s f info next halted => ⟨_, step_of_halted next halted, rfl, rfl, unchanged_beginTransaction s⟩

/-! ## Completion -/

theorem cycle_completes (s : State) : ∃ t, cycle s = .next t := by
  unfold cycle
  split
  · exact ⟨_, rfl⟩
  · exact ⟨_, rfl⟩
  · unfold fetchDecodeExecute
    split
    · exact ⟨_, rfl⟩
    · split
      · next i _ => exact (exec_writes_listed i _).imp fun _ h => h.1
      · exact ⟨_, rfl⟩

/-- Settles O13: a cycle completes because every instruction does, and the other transactions answer a state by definition. -/
theorem everyStepCompletes : Obligations.EveryStepCompletes := by
  unfold Obligations.EveryStepCompletes
  intro s
  unfold step
  cases s.nextTransaction with
  | cycle => exact cycle_completes _
  | _ => exact ⟨_, rfl⟩

/-! ## The status -/

theorem load_status (image : List Byte) (address : Nat) (s : State) : (load image address s).status = s.status := by
  unfold load
  split <;> rfl

/-- The transitions of R37, as far as a cycle makes them. -/
theorem cycle_status {s t : State} (h : cycle s = .next t) :
    t.status = s.status ∨
      (s.status = .running ∧ s.pc.toNat ≤ 4094 ∧ ∃ x, decode s.fetchWord = .instr (.ldK x) ∧ t.status = .waitingForKey x) ∨
      ((∃ r, s.status = .waitingForKey r) ∧ (∃ k : Key, s.keyEdge[k.val] = true) ∧ t.status = .running) ∨
      (s.status = .running ∧ ∃ f info, t.status = .halted f info) := by
  obtain ⟨f, info, _, rfl⟩ | ⟨r, hr, rfl⟩ | ⟨running, _, rfl⟩ | ⟨_, _, w, _, rfl⟩ | ⟨running, fits, i, hi, hexec⟩ := cycle_cases h
  · exact .inl rfl
  · obtain ⟨_, unresolved⟩ | ⟨k, hk, resolved⟩ := keyWaitPoll_cases r s
    · exact .inl (congrArg State.status unresolved)
    · exact .inr (.inr (.inl ⟨⟨r, hr⟩, ⟨k, (mem_pressedKeys _ _).1 hk⟩, congrArg State.status resolved⟩))
  · exact .inr (.inr (.inr ⟨running, _, _, rfl⟩))
  · exact .inl rfl
  · obtain kept | ⟨x, rfl, waits⟩ | ⟨f, info, rfl⟩ := exec_status hexec
    · exact .inl kept
    · exact .inr (.inl ⟨running, fits, x, hi, waits⟩)
    · exact .inr (.inr (.inr ⟨running, f, info, rfl⟩))

theorem pressedKeys_ne_nil {edge : Vector Bool 16} {k : Key} (hk : edge[k.val] = true) : pressedKeys edge ≠ [] :=
  List.ne_nil_of_mem ((mem_pressedKeys edge k).2 hk)

/-- A poll that finds a latched press ends the wait (R202). -/
theorem keyWaitPoll_of_press (r : RegIdx) (s : State) {k : Key} (hk : s.keyEdge[k.val] = true) :
    ∃ j ∈ pressedKeys s.keyEdge, keyWaitPoll r s =
      { s.setV r (byteOfKey j) with
        keyEdge := Vector.replicate 16 false, status := .running, keyDraws := s.keyDraws + 1 } :=
  (keyWaitPoll_cases r s).resolve_left fun unpressed => pressedKeys_ne_nil hk unpressed.1

/-- Settles O10: only a cycle and `Reset()` change the status, and a cycle along the transitions of R37. -/
theorem statusTransitionsAreThoseListed : Obligations.StatusTransitionsAreThoseListed := by
  unfold Obligations.StatusTransitionsAreThoseListed
  intro s t h
  refine ⟨?_, fun next => ?_, fun x next running fits hx => ?_, fun r next waiting ⟨k, hk⟩ => ?_⟩
  · obtain ⟨next, hc⟩ | ⟨_, rfl⟩ | ⟨k, held, _, rfl⟩ | ⟨next, rfl⟩ | ⟨image, address, _, rfl⟩ | ⟨px, py, _, rfl⟩ | ⟨_, rfl⟩ :=
      step_cases h
    · obtain kept | ⟨running, fits, waits⟩ | ⟨waiting, press, runs⟩ | ⟨running, halts⟩ := cycle_status hc
      · exact .inl kept
      · exact .inr (.inr (.inl ⟨next, running, fits, waits⟩))
      · exact .inr (.inr (.inr (.inl ⟨next, waiting, press, runs⟩)))
      · exact .inr (.inr (.inr (.inr ⟨next, running, halts⟩)))
    · exact .inl rfl
    · exact .inl rfl
    · exact .inr (.inl ⟨next, rfl⟩)
    · exact .inl (load_status _ _ _)
    · exact .inl rfl
    · exact .inl rfl
  · cases (step_of_transaction next).symm.trans h
    rfl
  · cases ((step_of_instr next running fits hx).trans (exec_ldK x _)).symm.trans h
    rfl
  · cases (step_of_waiting next waiting).symm.trans h
    obtain ⟨_, _, poll⟩ := keyWaitPoll_of_press r s.beginTransaction hk
    exact congrArg State.status poll

/-- Settles O11: a running engine halts by a failed fetch, before `PC` is advanced, or by an instruction that does nothing but raise. -/
theorem fatalConditionsArePrecise : Obligations.FatalConditionsArePrecise := by
  unfold Obligations.FatalConditionsArePrecise
  intro s t f info next running h halted
  by_cases past : 4094 < s.pc.toNat
  · cases (step_of_fetch_past next running past).symm.trans h
    cases halted
    rfl
  have fits : s.pc.toNat ≤ 4094 := Nat.not_lt.1 past
  cases hd : decode s.fetchWord with
  | unknown w =>
    cases (step_of_unknown next running fits hd).symm.trans h
    exact Status.noConfusion (running.symm.trans halted)
  | instr i =>
    have hexec : exec i s.beginTransaction.advancePc = .next t := (step_of_instr next running fits hd).symm.trans h
    have not_fetch : f ≠ .fetchOutOfBounds := by
      rintro rfl
      simpa using instructionsHaltOnlyForListedCauses i s.beginTransaction.advancePc t _ info running hexec halted
    obtain kept | ⟨x, _, waits⟩ | ⟨f', info', rfl⟩ := exec_status hexec
    · exact Status.noConfusion (running.symm.trans (kept.symm.trans halted))
    · exact Status.noConfusion (waits.symm.trans halted)
    · cases halted
      rw [if_neg not_fetch]
      rfl

end Sys2Proof.Machine
end

section
/-! PROOFS. The transactions of the other agents (00_scope.md R8) and the key wait (46_key_wait.md): what each leaves, its frame, and the
statements about them. -/

namespace Sys2Proof.Machine

/-! ## The updates -/

section updates
variable (s : State)

theorem unchanged_of_output (o : Option Output) : UnchangedExcept s { s with output := o } (fun p => p = .output) :=
  fun p hp => by
    cases p with
    | output => exact absurd rfl hp
    | _ => rfl

theorem unchanged_tick : UnchangedExcept s (tick s) (fun p => p = .dt ∨ p = .st) := fun p hp => by
  cases p with
  | dt => exact absurd (.inl rfl) hp
  | st => exact absurd (.inr rfl) hp
  | _ => rfl

theorem unchanged_setKey (k : Key) (held : Bool) :
    UnchangedExcept s (setKey k held s) (fun p => p = .keyHeld k ∨ p = .keyEdge k) := fun p hp => by
  cases p with
  | keyHeld j => exact Vector.getElem_set_ne k.isLt j.isLt fun e => hp (.inl (congrArg Part.keyHeld (Fin.ext e.symm)))
  | keyEdge j => exact Vector.getElem_set_ne k.isLt j.isLt fun e => hp (.inr (congrArg Part.keyEdge (Fin.ext e.symm)))
  | _ => rfl

/-- What the end of a key wait writes (R202). -/
theorem unchanged_of_keyWaitEnd (r : RegIdx) (b : Byte) (edge : Vector Bool 16) (st : Status) (draws : Nat) :
    UnchangedExcept s { s.setV r b with keyEdge := edge, status := st, keyDraws := draws }
      (fun p => p = .v r ∨ p = .status ∨ (∃ j, p = .keyEdge j) ∨ p = .keyDraws) := fun p hp => by
  cases p with
  | v q => exact unchanged_setV s r b (.v q) fun h => hp (.inl h)
  | status => exact absurd (.inr (.inl rfl)) hp
  | keyEdge j => exact absurd (.inr (.inr (.inl ⟨j, rfl⟩))) hp
  | keyDraws => exact absurd (.inr (.inr (.inr rfl))) hp
  | _ => rfl

end updates

/-! ## The results -/

theorem toNat_countDown (b : Byte) : (countDown b).toNat = b.toNat - 1 := by
  unfold countDown
  split
  · next positive => exact BitVec.toNat_sub_of_le (BitVec.le_def.2 positive)
  · omega

theorem load_of_fits (image : List Byte) (address : Nat) (s : State) (h : address + image.length ≤ 4096) :
    load image address s = { s.storeBytes address image with output := some (.load .ok) } := if_neg (Nat.not_lt.2 h)

theorem load_of_oversize (image : List Byte) (address : Nat) (s : State) (h : 4096 < address + image.length) :
    load image address s = { s with output := some (.load .oversizeImage) } := if_pos h

/-- Above the glyph table the reset memory reads 0 (R26). -/
theorem readByte_reset_above_glyphs (a : Addr) (h : 0x050 ≤ a.toNat) : State.reset.mem.readByte a = 0x00 :=
  List.getD_eq_default _ _ h

theorem toNat_byteOfKey (k : Key) : (byteOfKey k).toNat = k.val := by
  rw [byteOfKey, BitVec.toNat_ofNat]
  exact Nat.mod_eq_of_lt (by omega)

/-! ## The statements -/

/-- Settles O18: the state of the reset, with the counters and the schedule going on. -/
theorem resetLeavesTheResetState : Obligations.ResetLeavesTheResetState := by
  unfold Obligations.ResetLeavesTheResetState
  intro s next
  have same (p : Part) (hp : p ≠ .randomDraws ∧ p ≠ .keyDraws ∧ p ≠ .schedule) :
      Same p State.reset (performReset s.beginTransaction) := by
    obtain ⟨h1, h2, h3⟩ := hp
    cases p with
    | randomDraws => exact absurd rfl h1
    | keyDraws => exact absurd rfl h2
    | schedule => exact absurd rfl h3
    | _ => rfl
  exact ⟨_, step_of_transaction next, same, fun r => Vector.getElem_replicate _, rfl, rfl, rfl,
    fun j => Vector.getElem_replicate _, rfl, rfl, Framebuffer.pixel_blank,
    fun k => ⟨Vector.getElem_replicate _, Vector.getElem_replicate _⟩, rfl, rfl, readByte_reset_above_glyphs, rfl, rfl, rfl, rfl⟩

/-- Settles O19: an image that fits is stored as a block, and the check comes before the copy. -/
theorem loadCopiesTheImage : Obligations.LoadCopiesTheImage := by
  unfold Obligations.LoadCopiesTheImage
  refine fun s image address next => ⟨fun fits => ?_, fun oversize => ?_⟩
  · refine ⟨_, (step_of_transaction next).trans (congrArg Host.Outcome.next (load_of_fits image address _ fits)), rfl, rfl, fun j hj => ?_, ?_⟩
    · rw [List.getElem?_eq_getElem hj, ← List.getD_eq_getElem image 0 hj]
      exact congrArg some (s.beginTransaction.readByte_storeBytes address image fits hj)
    · have stored := unchanged_storeBytes s.beginTransaction address image fits
      refine ((stored.of_beginTransaction).trans ((unchanged_of_output _ _).mono fun _ h => .inr (.inl h))).mono fun p => ?_
      rintro (byte | output | schedule)
      · exact .inr (.inr byte)
      · exact .inl output
      · exact .inr (.inl schedule)
  · refine ⟨_, (step_of_transaction next).trans (congrArg Host.Outcome.next (load_of_oversize image address _ oversize)), rfl, rfl, ?_⟩
    exact (unchanged_beginTransaction s).trans ((unchanged_of_output _ _).mono fun _ => .inl)

/-- Settles O20: truncated subtraction is the clamp of both timers. -/
theorem tickCountsBothTimersDown : Obligations.TickCountsBothTimersDown := by
  unfold Obligations.TickCountsBothTimersDown
  exact fun s next => ⟨_, step_of_transaction next, toNat_countDown s.dt, toNat_countDown s.st, rfl, rfl,
    (unchanged_tick _).of_beginTransaction.mono fun _ => or_assoc.1⟩

/-- Settles O21: the new edge is the old one or a press of a key not held. -/
theorem setKeyLatchesThePress : Obligations.SetKeyLatchesThePress := by
  unfold Obligations.SetKeyLatchesThePress
  intro s k held next
  have edge : (setKey k held s.beginTransaction).keyEdge[k.val] = (s.keyEdge[k.val] || (held && !s.keyHeld[k.val])) :=
    Vector.getElem_set_self _
  refine ⟨_, step_of_transaction next, Vector.getElem_set_self _, ?_, rfl, rfl,
    (unchanged_setKey _ k held).of_beginTransaction.mono fun _ => or_assoc.1⟩
  rw [edge, Bool.or_eq_true, Bool.and_eq_true, Bool.not_eq_true']

/-- Settles O22: both reads write the output only. -/
theorem outsideReadsChangeNothing : Obligations.OutsideReadsChangeNothing := by
  unfold Obligations.OutsideReadsChangeNothing
  have frame (s : State) (o : Option Output) :
      UnchangedExcept s { s.beginTransaction with output := o } (fun p => p = .output ∨ p = .schedule) :=
    (unchanged_beginTransaction s).trans ((unchanged_of_output _ o).mono fun _ => .inl)
  refine ⟨fun s px py next => ⟨_, step_of_transaction next, rfl, rfl, frame s _⟩, fun s next => ?_⟩
  refine ⟨_, step_of_transaction next, ⟨_, rfl, ?_⟩, rfl, frame s _⟩
  rw [State.beginTransaction_st, bne_iff_ne, ne_eq, ← BitVec.toNat_inj]
  rfl

/-- Settles O24: with no press latched the poll does nothing, with one it writes the selected key and ends the wait. -/
theorem keyWaitEndsWithALatchedPress : Obligations.KeyWaitEndsWithALatchedPress := by
  unfold Obligations.KeyWaitEndsWithALatchedPress
  refine fun s r next waiting => ⟨fun unpressed => ?_, fun ⟨k, hk⟩ => ?_⟩
  · have poll : keyWaitPoll r s.beginTransaction = s.beginTransaction := by
      rw [keyWaitPoll, State.beginTransaction_keyEdge, (pressedKeys_eq_nil _).2 unpressed]
    exact ⟨_, (step_of_waiting next waiting).trans (congrArg _ poll), rfl, rfl, unchanged_beginTransaction s⟩
  · obtain ⟨j, hj, poll⟩ := keyWaitPoll_of_press r s.beginTransaction hk
    refine ⟨_, j, (step_of_waiting next waiting).trans (congrArg _ poll), (mem_pressedKeys s.keyEdge j).1 hj, ?_, rfl,
      fun _ => Vector.getElem_replicate _, rfl, rfl, ?_⟩
    · exact (congrArg BitVec.toNat (State.getV_setV_self _ r _)).trans (toNat_byteOfKey j)
    · refine (unchanged_of_keyWaitEnd _ r _ _ _ _).of_beginTransaction.mono fun p => ?_
      rintro ((reg | status | edge | draws) | output | schedule) <;> simp [*]

/-- Settles O25: the draw that is a key's place among the latched ones selects that key. -/
theorem selectKeyDrawsAnyLatchedKey : Obligations.SelectKeyDrawsAnyLatchedKey := by
  unfold Obligations.SelectKeyDrawsAnyLatchedKey
  rintro edge ⟨k₀, hk₀⟩
  have latched (draw : Nat) : edge[(selectKey edge draw).val] = true :=
    (mem_pressedKeys edge _).1 (selectKey_mem edge draw (pressedKeys_ne_nil hk₀))
  refine ⟨latched, fun k hk => ?_, fun k single draw => (single _).1 (latched draw)⟩
  obtain ⟨place, hlt, hplace⟩ := List.getElem_of_mem ((mem_pressedKeys edge k).2 hk)
  exact ⟨place, by rw [selectKey, Nat.mod_eq_of_lt hlt, List.getD_eq_getElem _ _ hlt, hplace]⟩

end Sys2Proof.Machine
end

section
/-! PROOFS. The two invariants, of every step: memory stays in its canonical form, `PC` and the saved return addresses stay bounded. -/

namespace Sys2Proof.Machine

/-! ## What a poll leaves unchanged -/

@[simp] theorem keyWaitPoll_mem (r : RegIdx) (s : State) : (keyWaitPoll r s).mem = s.mem := by
  unfold keyWaitPoll
  split <;> rfl

@[simp] theorem keyWaitPoll_pc (r : RegIdx) (s : State) : (keyWaitPoll r s).pc = s.pc := by
  unfold keyWaitPoll
  split <;> rfl

@[simp] theorem keyWaitPoll_stack (r : RegIdx) (s : State) : (keyWaitPoll r s).stack = s.stack := by
  unfold keyWaitPoll
  split <;> rfl

/-! ## Memory -/

/-- What a step can do to memory: nothing, a block of writes, or the reset. -/
theorem step_mem {s t : State} (h : step s = .next t) :
    t.mem = s.mem ∨ (∃ base bs, t.mem = s.mem.writeBytes base bs) ∨ t.mem = [] := by
  obtain ⟨_, hc⟩ | ⟨_, rfl⟩ | ⟨k, held, _, rfl⟩ | ⟨_, rfl⟩ | ⟨image, address, _, rfl⟩ | ⟨px, py, _, rfl⟩ | ⟨_, rfl⟩ := step_cases h
  · obtain ⟨_, _, _, rfl⟩ | ⟨r, _, rfl⟩ | ⟨_, _, rfl⟩ | ⟨_, _, w, _, rfl⟩ | ⟨_, _, i, _, hexec⟩ := cycle_cases hc
    · exact .inl rfl
    · exact .inl (keyWaitPoll_mem r s.beginTransaction)
    · exact .inl rfl
    · exact .inl rfl
    · exact (exec_mem hexec).imp_right .inl
  · exact .inl rfl
  · exact .inl rfl
  · exact .inr (.inr rfl)
  · unfold load
    split
    · exact .inl rfl
    · exact .inr (.inl ⟨address, image, rfl⟩)
  · exact .inl rfl
  · exact .inl rfl

/-- Settles O15: every write of a byte keeps the canonical form, and the empty list has it. -/
theorem stepKeepsMemoryCanonical : Obligations.StepKeepsMemoryCanonical := by
  unfold Obligations.StepKeepsMemoryCanonical State.memoryCanonical
  intro s t canonical h
  obtain kept | ⟨base, bs, written⟩ | reset := step_mem h
  · rw [kept]
    exact canonical
  · rw [written]
    exact Memory.writeBytes_wf canonical base bs
  · rw [reset]
    rfl

/-! ## `PC` and the stack -/

theorem State.skipIf_pc_cases {s t : State} {taken : Bool} (h : (.next (s.skipIf taken) : Result) = .next t) :
    t.pc = s.pc ∨ t.pc = s.pc + 2 := by
  cases h
  cases taken with
  | false => exact .inl rfl
  | true => exact .inr rfl

/-- What an instruction can make of `PC`: nothing, a skip, a jump to an address, an address plus a byte, or a saved return address. -/
theorem exec_pc {i : Instr} {s t : State} (h : exec i s = .next t) :
    t.pc = s.pc ∨ t.pc = s.pc + 2 ∨ (∃ nnn, t.pc = zextAddr nnn) ∨ (∃ nnn b, t.pc = zextAddr nnn + zextByte b) ∨
      ∃ j : Fin 16, t.pc = s.stack[j.val] := by
  by_cases writer : listedWriter .pc i
  · obtain ⟨nnn, rfl | rfl | rfl⟩ | rfl | ⟨x, nn, rfl | rfl⟩ | ⟨x, y, rfl | rfl⟩ | ⟨x, rfl | rfl⟩ := writer
    · cases h
      exact .inr (.inr (.inl ⟨nnn, rfl⟩))
    · by_cases room : s.sp.val < 16
      · cases (exec_call_of_lt nnn s room).symm.trans h
        exact .inr (.inr (.inl ⟨nnn, rfl⟩))
      · cases (exec_call_of_full nnn s (by omega)).symm.trans h
        exact .inl rfl
    · cases h
      exact .inr (.inr (.inr (.inl ⟨nnn, s.getV 0, rfl⟩)))
    · by_cases empty : s.sp.val = 0
      · cases (exec_ret_of_empty s empty).symm.trans h
        exact .inl rfl
      · cases (exec_ret_of_pos s (by omega)).symm.trans h
        exact .inr (.inr (.inr (.inr ⟨⟨s.sp.val - 1, by omega⟩, rfl⟩)))
    · exact (State.skipIf_pc_cases h).imp_right .inl
    · exact (State.skipIf_pc_cases h).imp_right .inl
    · exact (State.skipIf_pc_cases h).imp_right .inl
    · exact (State.skipIf_pc_cases h).imp_right .inl
    · by_cases key : (s.getV x).toNat < 16
      · exact (State.skipIf_pc_cases ((exec_skp_of_key x s ⟨_, key⟩ rfl).symm.trans h)).imp_right .inl
      · cases (exec_skp_of_past x s (by omega)).symm.trans h
        exact .inl rfl
    · by_cases key : (s.getV x).toNat < 16
      · exact (State.skipIf_pc_cases ((exec_sknp_of_key x s ⟨_, key⟩ rfl).symm.trans h)).imp_right .inl
      · cases (exec_sknp_of_past x s (by omega)).symm.trans h
        exact .inl rfl
  · exact .inl (exec_frame h .pc writer)

/-- What an instruction can make of a stack entry: nothing, or the `PC` after the fetch. -/
theorem exec_stack {i : Instr} {s t : State} (h : exec i s = .next t) (j : Fin 16) :
    t.stack[j.val] = s.stack[j.val] ∨ t.stack[j.val] = s.pc := by
  by_cases writer : listedWriter (.stackEntry j) i
  · obtain ⟨nnn, rfl⟩ := writer
    by_cases room : s.sp.val < 16
    · cases (exec_call_of_lt nnn s room).symm.trans h
      rw [State.setPc_stack, State.getElem_push_stack]
      split
      · exact .inr rfl
      · exact .inl rfl
    · cases (exec_call_of_full nnn s (by omega)).symm.trans h
      exact .inl rfl
  · exact .inl (exec_frame h _ writer)

theorem toNat_add_two (a : Word) (h : a.toNat ≤ 0x10FE) : (a + 2).toNat = a.toNat + 2 := by
  rw [BitVec.toNat_add]
  exact Nat.mod_eq_of_lt (show a.toNat + 2 < 65536 by omega)

/-- Both bounds hold after an instruction, whose `PC` is at most 0x1000 once the fetch has advanced it (R91). -/
theorem exec_pcBounded {i : Instr} {s t : State} (hpc : s.pc.toNat ≤ 0x1000) (hstack : ∀ j : Fin 16, (s.stack[j.val]).toNat ≤ 0x1000)
    (h : exec i s = .next t) : t.pcBounded := by
  refine ⟨?_, fun j => ?_⟩
  · obtain e | e | ⟨nnn, e⟩ | ⟨nnn, b, e⟩ | ⟨j, e⟩ := exec_pc h
    · rw [e]
      omega
    · rw [e, toNat_add_two _ (by omega)]
      omega
    · rw [e, toNat_zextAddr]
      omega
    · rw [e, toNat_zextAddr_add_zextByte]
      omega
    · rw [e]
      exact (hstack j).trans (by decide)
  · obtain e | e := exec_stack h j
    · rw [e]
      exact hstack j
    · rw [e]
      exact hpc

/-- Settles O17: the reset memory lists nothing, and every stack entry is 0. -/
theorem invariantsAtReset : Obligations.InvariantsAtReset := by
  unfold Obligations.InvariantsAtReset State.memoryCanonical State.pcBounded
  decide

/-- The bounds carry over to a state with the same `PC` and stack. -/
theorem State.pcBounded.congr {s t : State} (h : s.pcBounded) (hpc : t.pc = s.pc) (hstack : t.stack = s.stack) : t.pcBounded := by
  rw [State.pcBounded, hpc, hstack]
  exact h

theorem cycle_pcBounded {s t : State} (bounded : s.pcBounded) (h : cycle s = .next t) : t.pcBounded := by
  obtain ⟨hpc, hstack⟩ := id bounded
  obtain ⟨_, _, _, rfl⟩ | ⟨r, _, rfl⟩ | ⟨_, _, rfl⟩ | ⟨_, fits, w, _, rfl⟩ | ⟨_, fits, i, _, hexec⟩ := cycle_cases h
  · exact bounded
  · exact bounded.congr (keyWaitPoll_pc r s) (keyWaitPoll_stack r s)
  · exact bounded.congr rfl rfl
  · refine ⟨?_, hstack⟩
    rw [State.emit_pc, State.advancePc_pc, toNat_add_two _ hpc]
    omega
  · refine exec_pcBounded (s := s.advancePc) ?_ hstack hexec
    rw [State.advancePc_pc, toNat_add_two _ hpc]
    omega

/-- Settles O16: a cycle fetches at 4094 at most, `Reset()` starts anew, and the other transactions write neither part. -/
theorem stepKeepsPcBounded : Obligations.StepKeepsPcBounded := by
  unfold Obligations.StepKeepsPcBounded
  intro s t bounded h
  obtain ⟨_, hc⟩ | ⟨_, rfl⟩ | ⟨k, held, _, rfl⟩ | ⟨_, rfl⟩ | ⟨image, address, _, rfl⟩ | ⟨px, py, _, rfl⟩ | ⟨_, rfl⟩ := step_cases h
  · exact cycle_pcBounded (s := s.beginTransaction) (bounded.congr rfl rfl) hc
  · exact bounded.congr rfl rfl
  · exact bounded.congr rfl rfl
  · exact invariantsAtReset.2.congr rfl rfl
  · unfold load
    split
    · exact bounded.congr rfl rfl
    · exact bounded.congr rfl rfl
  · exact bounded.congr rfl rfl
  · exact bounded.congr rfl rfl

end Sys2Proof.Machine
end
